-- ==== Sys2Proof/Word.lean ====
section
/-! DEFINITION. The word types of the machine (10_state.md R10, R11; 20_memory.md R22). -/

namespace Sys2Proof

/-- A general register, the program counter or an address: 64 bits (10_state.md R10, R11). -/
abbrev Word := BitVec 64

/-- The 32-bit quantities CPUID and the helper instructions work on (10_state.md R9, 42_helper_instructions.md R81). -/
abbrev Half := BitVec 32

/-- One byte of memory or of program text (10_state.md R17). -/
abbrev Byte := BitVec 8

end Sys2Proof
end

