-- ==== Sys2Proof/Config.lean ====
section
/-! DEFINITION. The configuration record of 00_scope.md R5 and the two constants without a body: the free values
(`draw_N()` of 00_scope.md R8) and the configuration of the machine after reset. -/

namespace Sys2Proof

/-- The twelve legacy Intel AVX-512 CPUID feature flags of Table 1-2 (41_avx10_versioning.md R72); VAES, VPCLMULQDQ and
GFNI, the other three names of the table, are flags of their own (00_scope.md R5). -/
inductive Avx512Flag where
  | avx512f | avx512cd | avx512bw | avx512dq
  | avx512Vbmi | avx512Ifma
  | avx512Vnni
  | avx512Bf16
  | avx512Vpopcntdq | avx512Vbmi2 | avx512Bitalg
  | avx512Fp16
deriving DecidableEq, Repr

/-- The configuration record `Cfg` of 00_scope.md R5: what the enumeration is a function of, one per logical processor as
seen by the software that runs on it. -/
structure Cfg where
  /-- `AVX10_SUPPORTED`, `CPUID.(07H,01H):EDX[19]`. -/
  avx10Supported : Bool
  /-- `AVX10_MAX_SUBLEAF`, `CPUID.(24H,00H):EAX`. -/
  avx10MaxSubleaf : Half
  /-- `AVX10_VERSION`, `CPUID.(24H,00H):EBX[7:0]`. -/
  avx10Version : BitVec 8
  /-- `VL128`, `EBX[16]`. -/
  vl128 : Bool
  /-- `VL256`, `EBX[17]`. -/
  vl256 : Bool
  /-- `VL512`, `EBX[18]`. -/
  vl512 : Bool
  /-- `AVX_SUPPORTED`. -/
  avxSupported : Bool
  /-- `AVX2_SUPPORTED`. -/
  avx2Supported : Bool
  /-- `FLAG_VAES`. -/
  flagVaes : Bool
  /-- `FLAG_VPCLMULQDQ`. -/
  flagVpclmulqdq : Bool
  /-- `FLAG_GFNI`. -/
  flagGfni : Bool
  /-- `AVX512_FLAGS`: the legacy Intel AVX-512 flags that are set. -/
  avx512Flags : List Avx512Flag
  /-- `IS_PCORE`: the logical processor is a Performance-core. -/
  isPcore : Bool
  /-- `MAX_BASIC_LEAF` (open, D5). -/
  maxBasicLeaf : Half
  /-- `LEAF7_MAX_SUBLEAF` (open, D5). -/
  leaf7MaxSubleaf : Half
  /-- The MODEL's own field (DESIGN CHOICE, entry 14, safe): whether the two optional refinements of
  40_cpuid_enumeration.md R58 are taken. `false` is the spec's default model. -/
  exposeRangeLeaves : Bool
deriving DecidableEq, Repr, Inhabited

/-- `draw_N()` of 00_scope.md R8: the value of the `k`-th draw when `w` bits are asked for. It has no body, so nothing can
be proved of a value and two draws at different indices need not agree (D2, D20). DESIGN CHOICE, entry 6, safe. -/
opaque Config.draw (w : Nat) (k : Nat) : BitVec w

/-- The configuration of the machine after reset: `Cfg` is a parameter of the run (70_reset_and_hazards.md R111), so the
model fixes none. DESIGN CHOICE, entry 7, safe. -/
opaque Config.cfg : Cfg

end Sys2Proof
end

