-- ==== Sys2Proof/Syntax.lean ====
section
/-! DEFINITION. The instructions: one constructor per row of spec/opcode_table.json, operands already taken out of the
encoding (30_encoding.md R33). -/

namespace Sys2Proof

/-- The registers an instruction can name, numbers 0 to 7 in this order (10_state.md R10). -/
inductive Reg where
  | eax | ecx | edx | ebx | esp | ebp | esi | edi
deriving DecidableEq, Repr

/-- The number of a register in the file `x[0..15]` (10_state.md R10). -/
def Reg.index : Reg → Fin 16
  | .eax => 0
  | .ecx => 1
  | .edx => 2
  | .ebx => 3
  | .esp => 4
  | .ebp => 5
  | .esi => 6
  | .edi => 7

/-- The sixteen instructions of spec/opcode_table.json. `rm`, `reg` and `rd` are named as the spec names the fields. -/
inductive Instr where
  /-- `CPUID`, 40_cpuid_enumeration.md R43. -/
  | cpuid
  /-- `MOV r32, imm32`, 42_helper_instructions.md R82. -/
  | movRegImm (rd : Reg) (imm : Half)
  /-- `MOV r32, r32`, R83: destination `rm`, source `reg`. -/
  | movRegReg (rm reg : Reg)
  /-- `MOV [r64], r32`, R84: address register `rm`, source `reg`. -/
  | movStore (rm reg : Reg)
  /-- `MOV r32, [r64]`, R85: destination `reg`, address register `rm`. -/
  | movLoad (reg rm : Reg)
  /-- `MOVZX r32, r8`, R86: destination `reg`, 8-bit source in `rm`. -/
  | movzx (reg rm : Reg)
  /-- `AND r32, imm32`, R87. -/
  | andImm (rm : Reg) (imm : Half)
  /-- `CMP r32, imm32`, R88. -/
  | cmpImm (rm : Reg) (imm : Half)
  /-- `TEST r32, imm32`, R89. -/
  | testImm (rm : Reg) (imm : Half)
  /-- `SHR r32, imm8`, R90. -/
  | shrImm (rm : Reg) (imm : Byte)
  /-- `XOR r32, r32`, R91: destination and first source `rm`, second source `reg`. -/
  | xorReg (rm reg : Reg)
  /-- `JZ rel8`, R93. -/
  | jz (rel : Byte)
  /-- `JNZ rel8`, R94. -/
  | jnz (rel : Byte)
  /-- `JB rel8`, R95. -/
  | jb (rel : Byte)
  /-- `JAE rel8`, R96. -/
  | jae (rel : Byte)
  /-- `JMP rel8`, R97. -/
  | jmp (rel : Byte)
deriving DecidableEq, Repr

end Sys2Proof
end

