-- ==== Sys2Proof/WellFormed.lean ====
section
/-! DEFINITION. Which terms of `Instr` have an encoding (30_encoding.md R33, R38): the operand conditions that a row's
mask cannot say. -/

namespace Sys2Proof

/-- A register that may stand as the memory address: `rm` not `100` (a SIB byte) and not `101` (instruction-pointer
relative), 30_encoding.md R38. -/
def Reg.canAddress : Reg → Bool
  | .esp => false
  | .ebp => false
  | _ => true

/-- A register with an 8-bit form, numbers 0 to 3: AL, CL, DL, BL (30_encoding.md R38). -/
def Reg.hasLowByte : Reg → Bool
  | .eax => true
  | .ecx => true
  | .edx => true
  | .ebx => true
  | _ => false

/-- The masked shift count, bits 4:0 of the imm8, is not 0: the constraint of the SHR row (30_encoding.md R33). -/
def shiftsByCount (imm : Byte) : Bool := imm &&& 0x1F != 0

/-- The operands are ones the encoding admits (30_encoding.md R33, R38). -/
def Instr.wellFormed : Instr → Bool
  | .cpuid => true
  | .movRegImm _ _ => true
  | .movRegReg _ _ => true
  | .movStore rm _ => rm.canAddress
  | .movLoad _ rm => rm.canAddress
  | .movzx _ rm => rm.hasLowByte
  | .andImm _ _ => true
  | .cmpImm _ _ => true
  | .testImm _ _ => true
  | .shrImm _ imm => shiftsByCount imm
  | .xorReg _ _ => true
  | .jz _ => true
  | .jnz _ => true
  | .jb _ => true
  | .jae _ => true
  | .jmp _ => true

end Sys2Proof
end

