-- ==== Sys2Proof/Decode.lean ====
section
/-! DEFINITION. From bytes to an instruction and back (30_encoding.md R33, R34, R38 to R41): the decoder, total on any
bytes and rejecting by name, then the encoder, then the rows of spec/opcode_table.json as data. -/

namespace Sys2Proof

/-- Why the bytes at `rip` are not admitted (30_encoding.md R40; 60_exceptions.md R99, first row). Each is raised by fetch
and decode and ends in a refusal: safe. -/
inductive Reject where
  /-- `rip` is outside the program text: there is no byte to decode. Safe. -/
  | outsideText
  /-- The instruction runs past the end of the program text. Safe. -/
  | pastEnd
  /-- The first byte is a prefix: legacy or REX (30_encoding.md R41). Safe. -/
  | prefixByte (b : Byte)
  /-- The first byte starts no row of the opcode table (30_encoding.md R40). Safe. -/
  | opcode (b : Byte)
  /-- `0F` followed by a byte other than `A2` and `B6` (30_encoding.md R33). Safe. -/
  | escape (b : Byte)
  /-- The ModRM byte is none of the forms the opcode admits (30_encoding.md R38). Safe. -/
  | form (op modrm : Byte)
  /-- SHR with a masked shift count of 0, which selects no row (30_encoding.md R33). The refusal it ends in is
  `NotAdmitted(count)` (42_helper_instructions.md R90, 60_exceptions.md R99). Safe. -/
  | count (imm : Byte)
deriving DecidableEq, Repr

/-- Four bytes assembled little-endian, `b0` from the lowest address (20_memory.md R22, 30_encoding.md R39). -/
def le32 (b0 b1 b2 b3 : Byte) : Half := b3 ++ b2 ++ b1 ++ b0

/-- Byte `i` of a 32-bit value, byte 0 the least significant: what stands at the lowest address (20_memory.md R22). -/
def byteOf (v : Half) (i : Nat) : Byte := v.extractLsb' (8 * i) 8

/-- The register of a 3-bit field (10_state.md R10). -/
def Reg.ofBits (b : BitVec 3) : Reg :=
  if b = 0 then .eax
  else if b = 1 then .ecx
  else if b = 2 then .edx
  else if b = 3 then .ebx
  else if b = 4 then .esp
  else if b = 5 then .ebp
  else if b = 6 then .esi
  else .edi

/-- The 3-bit field that names a register (10_state.md R10). -/
def Reg.bits : Reg → BitVec 3
  | .eax => 0
  | .ecx => 1
  | .edx => 2
  | .ebx => 3
  | .esp => 4
  | .ebp => 5
  | .esi => 6
  | .edi => 7

/-- `mod`, bits 7:6 of a ModRM byte (30_encoding.md R38). -/
def modOf (m : Byte) : BitVec 2 := m.extractLsb' 6 2

/-- `reg`, bits 5:3 of a ModRM byte: a register or an opcode extension (30_encoding.md R38). -/
def regOf (m : Byte) : BitVec 3 := m.extractLsb' 3 3

/-- `rm`, bits 2:0 of a ModRM byte (30_encoding.md R38). -/
def rmOf (m : Byte) : BitVec 3 := m.extractLsb' 0 3

/-- The prefix bytes 30_encoding.md R41 gives a value: `66`, `67`, `F0`, `F2`, `F3` and REX `40` to `4F`. It gives no byte of
the segment, VEX and EVEX prefixes; those bytes start no row and are rejected as `opcode`. -/
def isPrefix (b : Byte) : Bool :=
  b ∈ ([0x66, 0x67, 0xF0, 0xF2, 0xF3] : List Byte) || b &&& 0xF0 == 0x40

/-- What a decoder answers: an instruction and the bytes after it, or the reason there is none. -/
abbrev Decoded := Except Reject (Instr × List Byte)

/-- The four bytes of an imm32 (30_encoding.md R39), then the instruction made of it. -/
def decodeImm32 (mk : Half → Instr) : List Byte → Decoded
  | b0 :: b1 :: b2 :: b3 :: rest => .ok (mk (le32 b0 b1 b2 b3), rest)
  | _ => .error .pastEnd

/-- A branch with a rel8 (format `D8`, 30_encoding.md R33). -/
def decodeRel8 (mk : Byte → Instr) : List Byte → Decoded
  | b :: rest => .ok (mk b, rest)
  | [] => .error .pastEnd

/-- Opcode `89`: MOV r32, r32 with `mod = 11`, MOV [r64], r32 with `mod = 00` (30_encoding.md R38). -/
def decode89 : List Byte → Decoded
  | m :: rest =>
    if modOf m = 3 then .ok (.movRegReg (.ofBits (rmOf m)) (.ofBits (regOf m)), rest)
    else if modOf m = 0 ∧ (Reg.ofBits (rmOf m)).canAddress then
      .ok (.movStore (.ofBits (rmOf m)) (.ofBits (regOf m)), rest)
    else .error (.form 0x89 m)
  | [] => .error .pastEnd

/-- Opcode `8B`: MOV r32, [r64], `mod = 00` only (42_helper_instructions.md R85). -/
def decode8B : List Byte → Decoded
  | m :: rest =>
    if modOf m = 0 ∧ (Reg.ofBits (rmOf m)).canAddress then
      .ok (.movLoad (.ofBits (regOf m)) (.ofBits (rmOf m)), rest)
    else .error (.form 0x8B m)
  | [] => .error .pastEnd

/-- Opcode `31`: XOR r32, r32, `mod = 11` (42_helper_instructions.md R91). -/
def decode31 : List Byte → Decoded
  | m :: rest =>
    if modOf m = 3 then .ok (.xorReg (.ofBits (rmOf m)) (.ofBits (regOf m)), rest)
    else .error (.form 0x31 m)
  | [] => .error .pastEnd

/-- Opcode `81`: AND is `/4`, CMP is `/7` (42_helper_instructions.md R87, R88). -/
def decode81 : List Byte → Decoded
  | m :: rest =>
    if modOf m = 3 ∧ regOf m = 4 then decodeImm32 (.andImm (.ofBits (rmOf m))) rest
    else if modOf m = 3 ∧ regOf m = 7 then decodeImm32 (.cmpImm (.ofBits (rmOf m))) rest
    else .error (.form 0x81 m)
  | [] => .error .pastEnd

/-- Opcode `F7`: TEST is `/0` (42_helper_instructions.md R89). -/
def decodeF7 : List Byte → Decoded
  | m :: rest =>
    if modOf m = 3 ∧ regOf m = 0 then decodeImm32 (.testImm (.ofBits (rmOf m))) rest
    else .error (.form 0xF7 m)
  | [] => .error .pastEnd

/-- The imm8 of a SHR, whose masked count is not 0 (30_encoding.md R33). -/
def decodeCount (rm : Reg) : List Byte → Decoded
  | imm :: rest => if shiftsByCount imm then .ok (.shrImm rm imm, rest) else .error (.count imm)
  | [] => .error .pastEnd

/-- Opcode `C1`: SHR is `/5`; the count is an imm8 (42_helper_instructions.md R90). -/
def decodeC1 : List Byte → Decoded
  | m :: rest =>
    if modOf m = 3 ∧ regOf m = 5 then decodeCount (.ofBits (rmOf m)) rest
    else .error (.form 0xC1 m)
  | [] => .error .pastEnd

/-- MOVZX after `0F B6`: `mod = 11` and an 8-bit source 0 to 3 (42_helper_instructions.md R86). -/
def decodeMovzx : List Byte → Decoded
  | m :: rest =>
    if modOf m = 3 ∧ (Reg.ofBits (rmOf m)).hasLowByte then
      .ok (.movzx (.ofBits (regOf m)) (.ofBits (rmOf m)), rest)
    else .error (.form 0xB6 m)
  | [] => .error .pastEnd

/-- After `0F`: `A2` is CPUID, `B6` is MOVZX (30_encoding.md R33, R34). -/
def decode0F : List Byte → Decoded
  | b :: rest =>
    if b = 0xA2 then .ok (.cpuid, rest)
    else if b = 0xB6 then decodeMovzx rest
    else .error (.escape b)
  | [] => .error .pastEnd

/-- The decoder: by byte 0, and for `0F` by byte 1 (30_encoding.md R33). It answers the instruction and the bytes after
it; every other byte string is rejected by name (30_encoding.md R40, R41). -/
def decode : List Byte → Decoded
  | [] => .error .pastEnd
  | b :: rest =>
    if b = 0x0F then decode0F rest
    else if b &&& 0xF8 = 0xB8 then decodeImm32 (.movRegImm (.ofBits (b.extractLsb' 0 3))) rest
    else if b = 0x89 then decode89 rest
    else if b = 0x8B then decode8B rest
    else if b = 0x31 then decode31 rest
    else if b = 0x81 then decode81 rest
    else if b = 0xF7 then decodeF7 rest
    else if b = 0xC1 then decodeC1 rest
    else if b = 0x74 then decodeRel8 .jz rest
    else if b = 0x75 then decodeRel8 .jnz rest
    else if b = 0x72 then decodeRel8 .jb rest
    else if b = 0x73 then decodeRel8 .jae rest
    else if b = 0xEB then decodeRel8 .jmp rest
    else if isPrefix b then .error (.prefixByte b)
    else .error (.opcode b)

/-- A ModRM byte of its three fields (30_encoding.md R38). -/
def modRM (mod : BitVec 2) (reg rm : BitVec 3) : Byte := mod ++ reg ++ rm

/-- The four bytes of an imm32, little-endian (30_encoding.md R39). -/
def imm32Bytes (v : Half) : List Byte := [byteOf v 0, byteOf v 1, byteOf v 2, byteOf v 3]

/-- The bytes of an instruction, byte 0 first (30_encoding.md R33, R34, R38, R39). -/
def encode : Instr → List Byte
  | .cpuid => [0x0F, 0xA2]
  | .movRegImm rd imm => ((0x17 : BitVec 5) ++ rd.bits) :: imm32Bytes imm
  | .movRegReg rm reg => [0x89, modRM 3 reg.bits rm.bits]
  | .movStore rm reg => [0x89, modRM 0 reg.bits rm.bits]
  | .movLoad reg rm => [0x8B, modRM 0 reg.bits rm.bits]
  | .movzx reg rm => [0x0F, 0xB6, modRM 3 reg.bits rm.bits]
  | .andImm rm imm => 0x81 :: modRM 3 4 rm.bits :: imm32Bytes imm
  | .cmpImm rm imm => 0x81 :: modRM 3 7 rm.bits :: imm32Bytes imm
  | .testImm rm imm => 0xF7 :: modRM 3 0 rm.bits :: imm32Bytes imm
  | .shrImm rm imm => [0xC1, modRM 3 5 rm.bits, imm]
  | .xorReg rm reg => [0x31, modRM 3 reg.bits rm.bits]
  | .jz rel => [0x74, rel]
  | .jnz rel => [0x75, rel]
  | .jb rel => [0x72, rel]
  | .jae rel => [0x73, rel]
  | .jmp rel => [0xEB, rel]

/-- The length of an instruction in bytes (30_encoding.md R33, last column). -/
def instrLength : Instr → Nat
  | .cpuid => 2
  | .movRegImm _ _ => 5
  | .movRegReg _ _ => 2
  | .movStore _ _ => 2
  | .movLoad _ _ => 2
  | .movzx _ _ => 3
  | .andImm _ _ => 6
  | .cmpImm _ _ => 6
  | .testImm _ _ => 6
  | .shrImm _ _ => 3
  | .xorReg _ _ => 2
  | .jz _ => 2
  | .jnz _ => 2
  | .jb _ => 2
  | .jae _ => 2
  | .jmp _ => 2

/-- The length in bytes of the longest instruction (30_encoding.md R33). -/
def maxInstrLength : Nat := 6

/-- An entry of a row's `constraints`: a condition that cannot be put in a mask (30_encoding.md R33). -/
inductive RowConstraint where
  /-- "rm not in 4, 5", `rm` in byte 1: the two memory forms. -/
  | rmAddresses
  /-- "(imm8 AND 0x1F) != 0", `imm8` in byte 2: SHR. -/
  | countNotZero
deriving DecidableEq, Repr

/-- The bytes meet the condition. -/
def RowConstraint.holds (bs : List Byte) : RowConstraint → Bool
  | .rmAddresses => (Reg.ofBits (rmOf (bs.getD 1 0))).canAddress
  | .countNotZero => shiftsByCount (bs.getD 2 0)

/-- A row of spec/opcode_table.json: the fixed bits of the first bytes in memory order, the total length, and the
conditions beside the mask. -/
structure OpcodeRow where
  /-- `match`. -/
  pattern : List Byte
  /-- `mask`. -/
  mask : List Byte
  /-- `length`. -/
  length : Nat
  /-- `constraints`. -/
  constraints : List RowConstraint
deriving DecidableEq, Repr

/-- The row of spec/opcode_table.json that an instruction belongs to. -/
def opcodeRow : Instr → OpcodeRow
  | .cpuid => ⟨[0x0F, 0xA2], [0xFF, 0xFF], 2, []⟩
  | .movRegImm _ _ => ⟨[0xB8], [0xF8], 5, []⟩
  | .movRegReg _ _ => ⟨[0x89, 0xC0], [0xFF, 0xC0], 2, []⟩
  | .movStore _ _ => ⟨[0x89, 0x00], [0xFF, 0xC0], 2, [.rmAddresses]⟩
  | .movLoad _ _ => ⟨[0x8B, 0x00], [0xFF, 0xC0], 2, [.rmAddresses]⟩
  | .movzx _ _ => ⟨[0x0F, 0xB6, 0xC0], [0xFF, 0xFF, 0xC4], 3, []⟩
  | .andImm _ _ => ⟨[0x81, 0xE0], [0xFF, 0xF8], 6, []⟩
  | .cmpImm _ _ => ⟨[0x81, 0xF8], [0xFF, 0xF8], 6, []⟩
  | .testImm _ _ => ⟨[0xF7, 0xC0], [0xFF, 0xF8], 6, []⟩
  | .shrImm _ _ => ⟨[0xC1, 0xE8], [0xFF, 0xF8], 3, [.countNotZero]⟩
  | .xorReg _ _ => ⟨[0x31, 0xC0], [0xFF, 0xC0], 2, []⟩
  | .jz _ => ⟨[0x74], [0xFF], 2, []⟩
  | .jnz _ => ⟨[0x75], [0xFF], 2, []⟩
  | .jb _ => ⟨[0x72], [0xFF], 2, []⟩
  | .jae _ => ⟨[0x73], [0xFF], 2, []⟩
  | .jmp _ => ⟨[0xEB], [0xFF], 2, []⟩

/-- `(bytes[0..k-1] AND mask) = match` (30_encoding.md R33). -/
def maskedMatch : List Byte → List Byte → List Byte → Bool
  | p :: ps, m :: ms, b :: bs => b &&& m == p && maskedMatch ps ms bs
  | [], [], _ => true
  | _, _, _ => false

/-- The bytes select the row (30_encoding.md R33): the mask, every entry of the constraints, and enough bytes for the row's
length (60_exceptions.md R99). -/
def OpcodeRow.selects (r : OpcodeRow) (bs : List Byte) : Bool :=
  maskedMatch r.pattern r.mask bs && r.constraints.all (RowConstraint.holds bs)
    && r.length ≤ bs.length

/-- One instruction of each row, in the table's order; the operands do not matter for `opcodeRow`. -/
def rowRepresentatives : List Instr :=
  [.cpuid, .movRegImm .eax 0, .movRegReg .eax .eax, .movStore .eax .eax, .movLoad .eax .eax, .movzx .eax .eax,
   .andImm .eax 0, .cmpImm .eax 0, .testImm .eax 0, .shrImm .eax 1, .xorReg .eax .eax,
   .jz 0, .jnz 0, .jb 0, .jae 0, .jmp 0]

/-- The sixteen rows of spec/opcode_table.json, in its order. -/
def opcodeTable : List OpcodeRow := rowRepresentatives.map opcodeRow

/-- The bytes of an instruction given as one number, bit 0 the least significant bit of byte 0, and zero above `nbits`. -/
def tableBytes (nbits w : Nat) : List Byte :=
  (List.range maxInstrLength).map fun k => BitVec.ofNat 8 ((w % 2 ^ nbits) >>> (8 * k))

/-- The instruction the decoder reads from those bytes, `none` where it refuses. -/
def decodeTableWord (nbits w : Nat) : Option Instr :=
  match decode (tableBytes nbits w) with
  | .ok (i, _) => some i
  | .error _ => none

end Sys2Proof
end

