-- ==== Sys2Proof/Machine/State.lean ====
section
/-! DEFINITION. The machine's state as plain data (10_state.md), why a step can stop, and the state after reset. -/

namespace Sys2Proof.Machine

/-- The six status flags (10_state.md R12). -/
structure Flags where
  CF : Bool
  PF : Bool
  AF : Bool
  ZF : Bool
  SF : Bool
  OF : Bool
deriving DecidableEq, Repr

/-- A run of `size` byte addresses from `base`. -/
structure Region where
  base : Nat
  size : Nat
deriving DecidableEq, Repr

/-- What the launch fixes before the first step and no instruction writes (20_memory.md R32; 70_reset_and_hazards.md R111,
R118). -/
structure Launch where
  /-- The configuration as seen by the software of this run (00_scope.md R5). -/
  cfg : Cfg
  /-- `BASE`, the address of the first byte of the program text and the entry address. -/
  base : Word
  /-- `TEXT`, the program text; it is immutable (20_memory.md R30). -/
  text : List Byte
  /-- The addresses offered as data. `DATA` of 20_memory.md R32 is these less the text range (entry 11). -/
  data : List Region
deriving DecidableEq, Repr

/-- Data memory: address and byte, addresses strictly rising, no entry equal to what an unlisted address reads as
(`Memory.wf` in Ops.lean). -/
abbrev Memory := List Host.Cell

/-- Everything the spec gives the machine. -/
structure State where
  /-- The launch parameters, `Cfg` among them. -/
  launch : Launch
  /-- The general registers `x[0..15]` (10_state.md R10). -/
  x : Vector Word 16
  /-- The program counter (10_state.md R11). -/
  rip : Word
  /-- The status flags (10_state.md R12). -/
  flags : Flags
  /-- Data memory (10_state.md R17, 20_memory.md R22). -/
  mem : Memory
  /-- The 32 vector registers, each held in its largest form (10_state.md R13). The spec's model carries no contents and no
  instruction in scope touches them. DESIGN CHOICE, entry 5, safe. -/
  vec : Vector (BitVec 512) 32
  /-- The 8 opmask registers, each held in its largest length (10_state.md R14). DESIGN CHOICE, entry 5, safe; bits 63:32 on
  AVX10/256 (91_not_in_source.md N11): DESIGN CHOICE, entry 22, safe. -/
  opmask : Vector (BitVec 64) 8
  /-- The MODEL's own field: how many free values have been drawn. DESIGN CHOICE, entry 6, safe. -/
  draws : Nat
deriving DecidableEq, Repr

/-- Why the machine stops without a refusal. No instruction of the spec faults (60_exceptions.md R98). -/
inductive Fault where
  /-- Raised by `step` at `rip = END`: the run has ended normally and nothing is fetched (70_reset_and_hazards.md R118).
  DESIGN CHOICE, entry 10, safe. -/
  | runEnded
deriving DecidableEq, Repr

/-- Why the model has no meaning for a step (60_exceptions.md R98, R99). A refusal changes nothing and errs toward
unprovable: each is safe. -/
inductive Refusal where
  /-- An instruction without a meaning yet, raised by `exec`; no arm answers it. Safe. -/
  | notModelled (mnemonic : String)
  /-- `NotAdmitted(bytes)`, raised by fetch and decode: the offending bytes, `rip`, and why (60_exceptions.md R99). Safe. -/
  | notAdmittedBytes (bytes : List Byte) (rip : Word) (why : Reject)
  /-- `NotAdmitted(a)`, raised by the two memory forms (20_memory.md R32). Safe. -/
  | notAdmittedAccess (addr : Word)
  /-- `NotAdmitted(count)`, raised by SHR with a masked count of 0: by fetch and decode, since such bytes select no row, and
  by the meaning of SHR (30_encoding.md R33, 42_helper_instructions.md R90, 60_exceptions.md R99; entry 9). Safe. -/
  | notAdmittedCount (imm : Byte)
  /-- Raised by any instruction whose next `rip` would be negative or not below `2^64` (10_state.md R11, D22); entry 12.
  Safe. -/
  | notAdmittedTarget (target : Int)
deriving DecidableEq, Repr

/-- `BASE` after reset: a launch parameter the spec leaves free (20_memory.md R25). DESIGN CHOICE, entry 3, unsafe. -/
def State.resetBase : Word := 0x400000

/-- The launch after reset: no program placed, the whole address space offered as data, and an opaque configuration.
DESIGN CHOICE, entries 3 and 7, unsafe (entry 3). -/
def State.resetLaunch : Launch :=
  { cfg := Config.cfg, base := State.resetBase, text := [], data := [⟨0, 2 ^ 64⟩] }

/-- The machine right after reset (10_state.md R19, R20; 70_reset_and_hazards.md R112): `rip` is `BASE`; the values the
spec leaves arbitrary are zero. DESIGN CHOICE, entries 1, 2, 4, 5 and 6, unsafe. -/
def State.reset : State :=
  { launch := State.resetLaunch
    x := Vector.replicate 16 0
    rip := State.resetBase
    flags := ⟨false, false, false, false, false, false⟩
    mem := []
    vec := Vector.replicate 32 0
    opmask := Vector.replicate 8 0
    draws := 0 }

end Sys2Proof.Machine
end

