-- ==== Sys2Proof/Machine/Operands.lean ====
section
/-! DEFINITION. The operand forms (00_scope.md R8, 10_state.md R10, 42_helper_instructions.md R81): reads of a register at
its three widths, and the 32-bit register write. -/

namespace Sys2Proof.Machine

/-- The machine an instruction leaves, or why it leaves none. -/
abbrev Result := Host.Outcome State Fault Refusal

/-- `x[i]`: the full 64 bits, as the memory forms read their address (42_helper_instructions.md R84). -/
def readReg64 (s : State) (r : Reg) : Word := s.x.get r.index

/-- `x32[i]`: bits 31:0 (00_scope.md R8). -/
def readReg32 (s : State) (r : Reg) : Half := (readReg64 s r).setWidth 32

/-- `x8[i]`: bits 7:0 (00_scope.md R8). -/
def readReg8 (s : State) (r : Reg) : Byte := (readReg64 s r).setWidth 8

/-- `x32[i] <- v`: bits 63:32 become zero (10_state.md R10, D17). -/
def writeReg32 (s : State) (r : Reg) (v : Half) : State :=
  { s with x := s.x.set r.index (v.setWidth 64) r.index.isLt }

end Sys2Proof.Machine
end

