-- ==== Sys2Proof/Machine/Ops.lean ====
section
/-! DEFINITION. The named operations: draws, the program text and the program counter, data memory and its admission, and
the register files no instruction touches. The spec has no exception to take and no return from one (60_exceptions.md R98,
R103), so no operation stands here for them. -/

namespace Sys2Proof.Machine

/-! ### Free values -/

/-- `draw_1()` at index `k` (00_scope.md R8). -/
def drawBit (k : Nat) : Bool := (Config.draw 1 k).getLsbD 0

/-- `n` free values have been drawn. -/
def countDraws (s : State) (n : Nat) : State := { s with draws := s.draws + n }

/-- The flags are written (10_state.md R12). -/
def setFlags (s : State) (f : Flags) : State := { s with flags := f }

/-! ### Program text and program counter -/

/-- `END = BASE + LEN` (70_reset_and_hazards.md R118), as a number: it is not an address of the text. -/
def Launch.endAddr (l : Launch) : Nat := l.base.toNat + l.text.length

/-- The byte address lies in the text range `BASE .. BASE + LEN - 1` (20_memory.md R32). -/
def Launch.inText (l : Launch) (a : Nat) : Bool := l.base.toNat ≤ a && a < l.endAddr

/-- The program text from an address on, where the address lies in the text. -/
def Launch.textFrom (l : Launch) (a : Nat) : Option (List Byte) :=
  if l.inText a then some (l.text.drop (a - l.base.toNat)) else none

/-- `rip = END`: the run has ended (70_reset_and_hazards.md R118). -/
def State.atEnd (s : State) : Bool := s.rip.toNat == s.launch.endAddr

/-- `rip <- target`, refused where the target is not a 64-bit address: no wrap-around (10_state.md R11, D22). -/
def goTo (s : State) (target : Int) : Result :=
  if 0 ≤ target ∧ target.toNat < 2 ^ 64 then .next { s with rip := BitVec.ofInt 64 target }
  else .refused (.notAdmittedTarget target)

/-- `rip <- rip + length` (10_state.md R11). -/
def advance (s : State) (len : Nat) : Result := goTo s (s.rip.toNat + len)

/-- `rip <- rip + 2 + sext_64(rel8)` if the branch is taken, `rip <- rip + 2` otherwise (42_helper_instructions.md R93). -/
def branch (s : State) (rel : Byte) (taken : Bool) : Result :=
  if taken then goTo s (s.rip.toNat + 2 + rel.toInt) else advance s 2

/-! ### Data memory -/

/-- What an unlisted address reads as. The spec has data bytes arbitrary at launch (10_state.md R19, R20). DESIGN CHOICE,
entry 4, unsafe. -/
def unlistedByte : Byte := 0

/-- The cells stand at strictly rising addresses from `lo` on, below `2^64`, and none holds the unlisted byte. -/
def wfFrom (lo : Nat) : Memory → Bool
  | [] => true
  | (a, b) :: m => lo ≤ a && a < 2 ^ 64 && b != unlistedByte && wfFrom (a + 1) m

/-- The canonical form of data memory. -/
def Memory.wf (m : Memory) : Bool := wfFrom 0 m

/-- The byte at an address. -/
def readByte : Memory → Nat → Byte
  | [], _ => unlistedByte
  | (b, w) :: m, a => if a = b then w else readByte m a

/-- The memory with a cell in front, unless the byte is what an unlisted address reads as. -/
def consCell (a : Nat) (v : Byte) (m : Memory) : Memory := if v = unlistedByte then m else (a, v) :: m

/-- The memory with one byte written, in canonical form. -/
def writeByte : Memory → Nat → Byte → Memory
  | [], a, v => consCell a v []
  | (b, w) :: m, a, v =>
    if a < b then consCell a v ((b, w) :: m)
    else if a = b then consCell a v m
    else (b, w) :: writeByte m a v

/-- `MemRead(a, 4)`, little-endian (20_memory.md R22). -/
def read32 (m : Memory) (a : Nat) : Half :=
  le32 (readByte m a) (readByte m (a + 1)) (readByte m (a + 2)) (readByte m (a + 3))

/-- `MemWrite(a, 4, v)`, little-endian (20_memory.md R22). -/
def write32 (m : Memory) (a : Nat) (v : Half) : Memory :=
  writeByte (writeByte (writeByte (writeByte m a (byteOf v 0)) (a + 1) (byteOf v 1)) (a + 2) (byteOf v 2))
    (a + 3) (byteOf v 3)

/-- The byte address is in `DATA`: offered by the launch and not in the program text (20_memory.md R30, R32; entry 11). -/
def Launch.inData (l : Launch) (a : Nat) : Bool :=
  l.data.any (fun r => r.base ≤ a && a < r.base + r.size) && !l.inText a

/-- `Admitted(a, 4)`: the four bytes are in `DATA` and `a + 3 < 2^64` (20_memory.md R32). -/
def Launch.admitted (l : Launch) (a : Word) : Bool :=
  l.inData a.toNat && l.inData (a.toNat + 1) && l.inData (a.toNat + 2) && l.inData (a.toNat + 3) && a.toNat + 3 < 2 ^ 64

/-- The state with a 4-byte store made (20_memory.md R24). -/
def store32 (s : State) (a : Word) (v : Half) : State := { s with mem := write32 s.mem a.toNat v }

end Sys2Proof.Machine
end

