-- ==== Sys2Proof/Machine/Control.lean ====
section
/-! DEFINITION. Control transfer (42_helper_instructions.md section 4): no flag, register or memory byte is written. -/

namespace Sys2Proof.Machine

/-- `JZ rel8` (42_helper_instructions.md R93). -/
def execJz (rel : Byte) (s : State) : Result := branch s rel s.flags.ZF

/-- `JNZ rel8` (42_helper_instructions.md R94). -/
def execJnz (rel : Byte) (s : State) : Result := branch s rel (!s.flags.ZF)

/-- `JB rel8` (42_helper_instructions.md R95). -/
def execJb (rel : Byte) (s : State) : Result := branch s rel s.flags.CF

/-- `JAE rel8` (42_helper_instructions.md R96). -/
def execJae (rel : Byte) (s : State) : Result := branch s rel (!s.flags.CF)

/-- `JMP rel8` (42_helper_instructions.md R97). -/
def execJmp (rel : Byte) (s : State) : Result := branch s rel true

end Sys2Proof.Machine
end

