-- ==== Sys2Proof/Machine/Cpuid.lean ====
section
/-! DEFINITION. The CPUID leaf space and the CPUID instruction (40_cpuid_enumeration.md). The source of the free values is
an argument of the answer, so that a claim can be made for every source; the machine uses `Config.draw`. -/

namespace Sys2Proof.Machine

/-- The four 32-bit values of an answer (30_encoding.md R36). -/
structure CpuidAnswer where
  eax : Half
  ebx : Half
  ecx : Half
  edx : Half
deriving DecidableEq, Repr

/-- Four fresh draws: an answer the source does not define. -/
def undefinedAnswer (draw : (w : Nat) → Nat → BitVec w) (k : Nat) : CpuidAnswer :=
  ⟨draw 32 k, draw 32 (k + 1), draw 32 (k + 2), draw 32 (k + 3)⟩

/-- `OtherLeaves`: four draws, with the two optional refinements where the configuration exposes them
(40_cpuid_enumeration.md R58; entry 14). -/
def otherLeaves (draw : (w : Nat) → Nat → BitVec w) (c : Cfg) (leaf sub : Half) (k : Nat) : CpuidAnswer :=
  if c.exposeRangeLeaves = true ∧ leaf = 0 then { undefinedAnswer draw k with eax := c.maxBasicLeaf }
  else if c.exposeRangeLeaves = true ∧ leaf = 7 ∧ sub = 0 then { undefinedAnswer draw k with eax := c.leaf7MaxSubleaf }
  else undefinedAnswer draw k

/-- `CPUID.(07H,01H):EDX`: bit 19 is `AVX10_SUPPORTED`, bits 31:20 and 18:0 are draws (40_cpuid_enumeration.md R44). -/
def featureEdx (c : Cfg) (hi : BitVec 12) (lo : BitVec 19) : Half := hi ++ BitVec.ofBool c.avx10Supported ++ lo

/-- `CPUID.(24H,00H):EBX` assembled of its fields and the two reserved fields (30_encoding.md R36). -/
def leaf24Ebx (c : Cfg) (rsvd31_19 : BitVec 13) (rsvd15_8 : BitVec 8) : Half :=
  rsvd31_19 ++ BitVec.ofBool c.vl512 ++ BitVec.ofBool c.vl256 ++ BitVec.ofBool c.vl128 ++ rsvd15_8 ++ c.avx10Version

/-- `CpuidTable(Cfg, leaf, sub)` with the draws taken at the indices `k` to `k + 4` (40_cpuid_enumeration.md R57). The rows
are tried in order. -/
def cpuidTable (draw : (w : Nat) → Nat → BitVec w) (c : Cfg) (leaf sub : Half) (k : Nat) : CpuidAnswer :=
  if leaf = 0x07 ∧ sub = 0x01 then
    { undefinedAnswer draw k with edx := featureEdx c (draw 12 (k + 3)) (draw 19 (k + 4)) }
  else if leaf = 0x24 ∧ c.avx10Supported = false then undefinedAnswer draw k
  else if leaf = 0x24 ∧ sub = 0x00 then
    { eax := c.avx10MaxSubleaf
      ebx := leaf24Ebx c (draw 13 k) (draw 8 (k + 1))
      ecx := draw 32 (k + 2)
      edx := draw 32 (k + 3) }
  else if leaf = 0x24 then undefinedAnswer draw k
  else otherLeaves draw c leaf sub k

/-- How many draw indices one CPUID takes: the most any row of the table uses. -/
def cpuidDraws : Nat := 5

/-- The state with the answer written: EAX, EBX, ECX, EDX in the order of 40_cpuid_enumeration.md R43. -/
def writeAnswer (s : State) (a : CpuidAnswer) : State :=
  writeReg32 (writeReg32 (writeReg32 (writeReg32 s .eax a.eax) .ebx a.ebx) .ecx a.ecx) .edx a.edx

/-- What CPUID does but for the program counter: leaf and sub-leaf are read before any write
(40_cpuid_enumeration.md R43; 30_encoding.md R35). -/
def cpuidEffect (draw : (w : Nat) → Nat → BitVec w) (s : State) : State :=
  countDraws
    (writeAnswer s (cpuidTable draw s.launch.cfg (readReg32 s .eax) (readReg32 s .ecx) s.draws)) cpuidDraws

/-- `CPUID` (40_cpuid_enumeration.md R43). It writes no flag and touches no memory (20_memory.md R21). -/
def execCpuid (s : State) : Result := advance (cpuidEffect Config.draw s) 2

/-- `Cpuid(leaf, sub)` of 41_avx10_versioning.md R80: CPUID executed with these values in EAX and ECX. -/
def queryCpuid (draw : (w : Nat) → Nat → BitVec w) (s : State) (leaf sub : Half) : State :=
  cpuidEffect draw (writeReg32 (writeReg32 s .eax leaf) .ecx sub)

end Sys2Proof.Machine
end

