-- ==== Sys2Proof/Machine/DataMove.lean ====
section
/-! DEFINITION. Data movement (42_helper_instructions.md section 2). No instruction here writes a flag. -/

namespace Sys2Proof.Machine

/-- `MOV r32, imm32` (42_helper_instructions.md R82). -/
def execMovRegImm (rd : Reg) (imm : Half) (s : State) : Result := advance (writeReg32 s rd imm) 5

/-- `MOV r32, r32` (42_helper_instructions.md R83). -/
def execMovRegReg (rm reg : Reg) (s : State) : Result := advance (writeReg32 s rm (readReg32 s reg)) 2

/-- `MOV [r64], r32`, the store (42_helper_instructions.md R84). -/
def execMovStore (rm reg : Reg) (s : State) : Result :=
  if s.launch.admitted (readReg64 s rm) then advance (store32 s (readReg64 s rm) (readReg32 s reg)) 2
  else .refused (.notAdmittedAccess (readReg64 s rm))

/-- `MOV r32, [r64]`, the load: the address is read before the destination is written (42_helper_instructions.md R85). -/
def execMovLoad (reg rm : Reg) (s : State) : Result :=
  if s.launch.admitted (readReg64 s rm) then advance (writeReg32 s reg (read32 s.mem (readReg64 s rm).toNat)) 2
  else .refused (.notAdmittedAccess (readReg64 s rm))

/-- `MOVZX r32, r8` (42_helper_instructions.md R86). -/
def execMovzx (reg rm : Reg) (s : State) : Result := advance (writeReg32 s reg ((readReg8 s rm).setWidth 32)) 3

end Sys2Proof.Machine
end

