-- ==== Sys2Proof/Machine/Flags.lean ====
section
/-! DEFINITION. The flag computations (42_helper_instructions.md R81, R88, R90). A flag the real instruction leaves
undefined is an argument: the meaning draws it (D20; entry 6). -/

namespace Sys2Proof.Machine

/-- PF: the number of 1 bits in bits 7:0 is even (42_helper_instructions.md R81). -/
def evenParity (r : Half) : Bool := (List.range 8).countP (fun i => r.getLsbD i) % 2 == 0

/-- `LogicFlags(r)` with the drawn AF (42_helper_instructions.md R81). -/
def logicFlags (r : Half) (af : Bool) : Flags :=
  { CF := false, PF := evenParity r, AF := af, ZF := r == 0, SF := r.getLsbD 31, OF := false }

/-- The flags of `a - b` (42_helper_instructions.md R88). -/
def cmpFlags (a b : Half) : Flags :=
  let t := a - b
  { CF := a.toNat < b.toNat
    PF := evenParity t
    AF := (a.extractLsb' 0 4).toNat < (b.extractLsb' 0 4).toNat
    ZF := t == 0
    SF := t.getLsbD 31
    OF := a.getLsbD 31 != b.getLsbD 31 && t.getLsbD 31 != a.getLsbD 31 }

/-- The flags of `a >> n` for `n >= 1`, with the drawn AF and, for `n > 1`, the drawn OF (42_helper_instructions.md R90). -/
def shrFlags (a : Half) (n : Nat) (af ovf : Bool) : Flags :=
  let r := a >>> n
  { CF := a.getLsbD (n - 1)
    PF := evenParity r
    AF := af
    ZF := r == 0
    SF := r.getLsbD 31
    OF := if n = 1 then a.getLsbD 31 else ovf }

end Sys2Proof.Machine
end

