-- ==== Sys2Proof/Machine/Logic.lean ====
section
/-! DEFINITION. Logic, compare and shift (42_helper_instructions.md section 3). -/

namespace Sys2Proof.Machine

/-- `LogicFlags(r)` on a state: the flags written, one draw taken for AF (42_helper_instructions.md R81). -/
def setLogicFlags (s : State) (r : Half) : State := countDraws (setFlags s (logicFlags r (drawBit s.draws))) 1

/-- `AND r32, imm32` (42_helper_instructions.md R87). -/
def execAndImm (rm : Reg) (imm : Half) (s : State) : Result :=
  let r := readReg32 s rm &&& imm
  advance (setLogicFlags (writeReg32 s rm r) r) 6

/-- `CMP r32, imm32`: no register is written (42_helper_instructions.md R88). -/
def execCmpImm (rm : Reg) (imm : Half) (s : State) : Result :=
  advance (setFlags s (cmpFlags (readReg32 s rm) imm)) 6

/-- `TEST r32, imm32`: the result is discarded (42_helper_instructions.md R89). -/
def execTestImm (rm : Reg) (imm : Half) (s : State) : Result := advance (setLogicFlags s (readReg32 s rm &&& imm)) 6

/-- The shift count: bits 4:0 of the imm8 (42_helper_instructions.md R90). -/
def shiftCount (imm : Byte) : Nat := (imm &&& 0x1F).toNat

/-- `SHR r32, imm8`: a masked count of 0 is refused (no bytes decode to one, 30_encoding.md R33); AF is drawn first, then OF
(42_helper_instructions.md R90). -/
def execShrImm (rm : Reg) (imm : Byte) (s : State) : Result :=
  let n := shiftCount imm
  let a := readReg32 s rm
  if n = 0 then .refused (.notAdmittedCount imm)
  else
    advance
      (countDraws (setFlags (writeReg32 s rm (a >>> n)) (shrFlags a n (drawBit s.draws) (drawBit (s.draws + 1)))) 2) 3

/-- `XOR r32, r32` (42_helper_instructions.md R91). -/
def execXorReg (rm reg : Reg) (s : State) : Result :=
  let r := readReg32 s rm ^^^ readReg32 s reg
  advance (setLogicFlags (writeReg32 s rm r) r) 2

end Sys2Proof.Machine
end

