-- ==== Sys2Proof/Machine/Dispatch.lean ====
section
/-! DEFINITION. One arm per instruction of spec/opcode_table.json, in the table's order. -/

namespace Sys2Proof.Machine

def exec (i : Instr) (s : State) : Host.Outcome State Fault Refusal :=
  match i with
  | .cpuid => Sys2Proof.Machine.execCpuid s
  | .movRegImm rd imm => Sys2Proof.Machine.execMovRegImm rd imm s
  | .movRegReg rm reg => Sys2Proof.Machine.execMovRegReg rm reg s
  | .movStore rm reg => Sys2Proof.Machine.execMovStore rm reg s
  | .movLoad reg rm => Sys2Proof.Machine.execMovLoad reg rm s
  | .movzx reg rm => Sys2Proof.Machine.execMovzx reg rm s
  | .andImm rm imm => Sys2Proof.Machine.execAndImm rm imm s
  | .cmpImm rm imm => Sys2Proof.Machine.execCmpImm rm imm s
  | .testImm rm imm => Sys2Proof.Machine.execTestImm rm imm s
  | .shrImm rm imm => Sys2Proof.Machine.execShrImm rm imm s
  | .xorReg rm reg => Sys2Proof.Machine.execXorReg rm reg s
  | .jz rel => Sys2Proof.Machine.execJz rel s
  | .jnz rel => Sys2Proof.Machine.execJnz rel s
  | .jb rel => Sys2Proof.Machine.execJb rel s
  | .jae rel => Sys2Proof.Machine.execJae rel s
  | .jmp rel => Sys2Proof.Machine.execJmp rel s

end Sys2Proof.Machine
end

