-- ==== Sys2Proof/Machine/Fetch.lean ====
section
/-! DEFINITION. Instruction fetch and what a step adds around the instruction (20_memory.md R30, R32; 10_state.md R11;
70_reset_and_hazards.md R118). -/

namespace Sys2Proof.Machine

/-- The refusal of bytes the decoder rejects: `NotAdmitted(count)` with the immediate for a masked shift count of 0, else
`NotAdmitted(bytes)` with the bytes, at most the length of the longest instruction, and `rip` (60_exceptions.md R99,
R102; entries 9 and 13). -/
def fetchRefusal (bs : List Byte) (rip : Word) : Reject → Refusal
  | .outsideText => .notAdmittedBytes (bs.take maxInstrLength) rip .outsideText
  | .pastEnd => .notAdmittedBytes (bs.take maxInstrLength) rip .pastEnd
  | .prefixByte b => .notAdmittedBytes (bs.take maxInstrLength) rip (.prefixByte b)
  | .opcode b => .notAdmittedBytes (bs.take maxInstrLength) rip (.opcode b)
  | .escape b => .notAdmittedBytes (bs.take maxInstrLength) rip (.escape b)
  | .form op modrm => .notAdmittedBytes (bs.take maxInstrLength) rip (.form op modrm)
  | .count imm => .notAdmittedCount imm

/-- The instruction at `rip`, or the refusal of what stands there (60_exceptions.md R99). -/
def fetchInstr (s : State) : Except Refusal Instr :=
  match s.launch.textFrom s.rip.toNat with
  | none => .error (fetchRefusal [] s.rip .outsideText)
  | some bs =>
    match decode bs with
    | .ok (i, _) => .ok i
    | .error why => .error (fetchRefusal bs s.rip why)

/-- The end of a step: the next `rip` must be END or stand at an instruction the decoder admits, or the step is refused
with what that next fetch says (10_state.md R11, 70_reset_and_hazards.md R118, D22). DEDUCED, entry 8, safe. -/
def admitNext : Result → Result
  | .next t =>
    if t.atEnd then .next t
    else
      match fetchInstr t with
      | .ok _ => .next t
      | .error r => .refused r
  | .fault r => .fault r
  | .refused r => .refused r

/-- The program text that holds just the instruction those bits give: as many bytes as it has, or all of them where they
give none. -/
def singleText (nbits w : Nat) : List Byte :=
  match decode (tableBytes nbits w) with
  | .ok (i, _) => (tableBytes nbits w).take (instrLength i)
  | .error _ => tableBytes nbits w

end Sys2Proof.Machine
end

