-- ==== Sys2Proof/Machine/Step.lean ====
section
/-! DEFINITION. One step of the machine (60_exceptions.md R98, R102; 70_reset_and_hazards.md R118). -/

namespace Sys2Proof.Machine

/-- At END the run is over. Elsewhere the instruction at `rip` is fetched and decoded, it runs, and the next fetch is
admitted (60_exceptions.md R102). -/
def step (s : State) : Host.Outcome State Fault Refusal :=
  if s.atEnd then .fault .runEnded
  else
    match fetchInstr s with
    | .error r => .refused r
    | .ok i => admitNext (exec i s)

/-- `s` launched with the program that is this one instruction, placed at `rip`: END stands right behind it. -/
def State.withFetchWord (s : State) (nbits w : Nat) : State :=
  { s with launch := { s.launch with base := s.rip, text := singleText nbits w } }

end Sys2Proof.Machine
end

