-- ==== Sys2Proof/Machine/Versioning.lean ====
section
/-! DEFINITION. What the enumerated values mean (41_avx10_versioning.md): functions of the configuration, the detection
function over CPUID, and the register files they size. -/

namespace Sys2Proof.Machine

/-! ### Vector lengths -/

/-- The three vector lengths (00_scope.md glossary). -/
inductive VecLen where
  | v128 | v256 | v512
deriving DecidableEq, Repr

/-- A vector length in bits. -/
def VecLen.bits : VecLen → Nat
  | .v128 => 128
  | .v256 => 256
  | .v512 => 512

/-- The length of the highest bit set, 0 where none is (41_avx10_versioning.md R67, D21). -/
def maxVlOf (vl512 vl256 vl128 : Bool) : Nat :=
  if vl512 then 512 else if vl256 then 256 else if vl128 then 128 else 0

/-- `MaxVL(Cfg)` (41_avx10_versioning.md R67). -/
def maxVL (c : Cfg) : Nat := maxVlOf c.vl512 c.vl256 c.vl128

/-- The length is supported: `L <= MaxVL(Cfg)` (41_avx10_versioning.md R67). -/
def supportsLength (c : Cfg) (L : VecLen) : Bool := L.bits ≤ maxVL c

/-- `OpmaskLen(Cfg)` (41_avx10_versioning.md R69). -/
def opmaskLen (c : Cfg) : Nat := if c.vl512 then 64 else 32

/-! ### Configurations -/

/-- `WellFormed(Cfg)`, its seven conjuncts in order (40_cpuid_enumeration.md R60). -/
def cfgWellFormed (c : Cfg) : Bool :=
  (!c.avx10Supported || 1 ≤ c.avx10Version.toNat)
    && (!c.avx10Supported || !c.vl512 || c.vl256)
    && (!c.avx10Supported || !c.vl256 || c.vl128)
    && (!c.avx10Supported || c.vl256)
    && (!c.avx10Supported || (c.avxSupported && c.avx2Supported))
    && (!(c.avx10Supported && c.vl512) || c.isPcore)
    && (c.avx512Flags.isEmpty || c.isPcore)

/-- The constraint on the two range leaves where a model exposes them (40_cpuid_enumeration.md R58). -/
def rangeLeavesOk (c : Cfg) : Bool :=
  !c.avx10Supported || (0x24 ≤ c.maxBasicLeaf.toNat && 1 ≤ c.leaf7MaxSubleaf.toNat)

/-- A reference configuration of 00_scope.md R5: AVX10 of this version, at 512 bits or at 256; the fields the table does not
name are the least that is well formed. -/
def referenceCfg (version : BitVec 8) (vl512 : Bool) : Cfg :=
  { avx10Supported := true, avx10MaxSubleaf := 0, avx10Version := version
    vl128 := true, vl256 := true, vl512 := vl512
    avxSupported := true, avx2Supported := true
    flagVaes := false, flagVpclmulqdq := false, flagGfni := false
    avx512Flags := [], isPcore := vl512
    maxBasicLeaf := 0x24, leaf7MaxSubleaf := 1, exposeRangeLeaves := false }

/-- The reference configuration "no AVX10" of 00_scope.md R5. -/
def noAvx10Cfg : Cfg :=
  { referenceCfg 0 false with avx10Supported := false, vl128 := false, vl256 := false }

/-- A configuration the software inside an Intel AVX10/256 virtual machine may run under: `VL512 = 0` (60_exceptions.md R105,
D15). R105 leaves open whether the version the guest sees can also be lowered (91_not_in_source.md N12): that it and
every other field are kept is a DESIGN CHOICE, entry 21, unsafe for a claim about the guest's version. -/
def guest256 (c : Cfg) : Cfg := { c with vl512 := false }

/-- What 41_avx10_versioning.md R79 fixes of a Granite Rapids-based Intel Xeon processor: AVX10 version 1. -/
def isGraniteRapidsXeon (c : Cfg) : Bool := c.avx10Supported && c.avx10Version == 1

/-- The name `Intel AVX10.N/VL` of a configuration: version and length (41_avx10_versioning.md R78). -/
structure Avx10Name where
  version : Nat
  length : Nat
deriving DecidableEq, Repr

/-- `Name(Cfg)`, where AVX10 is supported (41_avx10_versioning.md R78). -/
def cfgName (c : Cfg) : Option Avx10Name :=
  if c.avx10Supported then some ⟨c.avx10Version.toNat, maxVL c⟩ else none

/-- The name as it is written (30_encoding.md R42). -/
def Avx10Name.text (n : Avx10Name) : String := "Intel AVX10." ++ toString n.version ++ "/" ++ toString n.length

/-! ### Feature sets -/

/-- The fifteen flag names of Table 1-2 (30_encoding.md R42, 41_avx10_versioning.md R72). -/
inductive FeatureFlag where
  | avx512 (f : Avx512Flag)
  | vaes | gfni | vpclmulqdq
deriving DecidableEq, Repr

/-- The processor generations of Table 1-2 (41_avx10_versioning.md R72). -/
inductive Generation where
  | skylake | cannonLake | cascadeLake | cooperLake | iceLake | sapphireRapids
deriving DecidableEq, Repr

/-- The generation that introduced a flag (Table 1-2, 41_avx10_versioning.md R72). -/
def introducedWith : FeatureFlag → Generation
  | .avx512 .avx512f => .skylake
  | .avx512 .avx512cd => .skylake
  | .avx512 .avx512bw => .skylake
  | .avx512 .avx512dq => .skylake
  | .avx512 .avx512Vbmi => .cannonLake
  | .avx512 .avx512Ifma => .cannonLake
  | .avx512 .avx512Vnni => .cascadeLake
  | .avx512 .avx512Bf16 => .cooperLake
  | .avx512 .avx512Vpopcntdq => .iceLake
  | .avx512 .avx512Vbmi2 => .iceLake
  | .vaes => .iceLake
  | .gfni => .iceLake
  | .vpclmulqdq => .iceLake
  | .avx512 .avx512Bitalg => .iceLake
  | .avx512 .avx512Fp16 => .sapphireRapids

/-- A feature or instruction set of Intel AVX10, by name: the spec gives no instruction of any (91_not_in_source.md N10). -/
inductive Feature where
  /-- The instruction set a flag of Table 1-2 enumerates. -/
  | isa (f : FeatureFlag)
  /-- Embedded rounding and SAE control on the YMM forms (41_avx10_versioning.md R74). -/
  | ymmEmbeddedRounding
  /-- The instruction sets new in version `k + 2`, which the spec does not list (91_not_in_source.md N13; entry 15). -/
  | newInstructionSets (k : Nat)
deriving DecidableEq, Repr

/-- The version that introduced a feature (41_avx10_versioning.md R71, R74). -/
def introducedIn : Feature → Nat
  | .isa _ => 1
  | .ymmEmbeddedRounding => 2
  | .newInstructionSets k => k + 2

/-- `Features(N)`: everything introduced in version N or before it (41_avx10_versioning.md R65). -/
def inFeatures (N : Nat) (f : Feature) : Bool := introducedIn f ≤ N

/-- The discrete "AVX10-XXXX" features defined in this revision: none (41_avx10_versioning.md R64). -/
def definedDiscreteFeatures : List String := []

/-- The flag of its own that VAES, VPCLMULQDQ and GFNI still need (41_avx10_versioning.md R73); the other twelve follow from
the version (41_avx10_versioning.md R72). -/
def ownFlagSet (c : Cfg) : FeatureFlag → Bool
  | .avx512 _ => true
  | .vaes => c.flagVaes
  | .gfni => c.flagGfni
  | .vpclmulqdq => c.flagVpclmulqdq

/-- The EVEX instructions of a flag may be used at a vector length (41_avx10_versioning.md R72, R73; 95_test_vectors.md S5). -/
def isaUsable (c : Cfg) (f : FeatureFlag) (L : VecLen) : Bool :=
  c.avx10Supported && ownFlagSet c f && supportsLength c L

/-- The scalar instructions of a feature set of Intel AVX10 are available, whatever the maximum vector length
(41_avx10_versioning.md R68). -/
def scalarAvailable (c : Cfg) (f : FeatureFlag) : Bool := c.avx10Supported && ownFlagSet c f

/-- The opmask length at which the opmask instructions of Intel AVX10 are available, whichever the maximum vector length is:
that of R69 (41_avx10_versioning.md R68, R69). R68 speaks of configurations with AVX10 only; nothing is said of another
(entry 23). -/
def opmaskInstructionLength (c : Cfg) : Option Nat := if c.avx10Supported then some (opmaskLen c) else none

/-- An application that uses only `Features(T)` at lengths up to `L` runs (41_avx10_versioning.md R65, R71); also the
result 41_avx10_versioning.md R80 gives for `HasAvx10(T, L)`. -/
def meetsTarget (c : Cfg) (T : Nat) (L : VecLen) : Bool :=
  c.avx10Supported && T ≤ c.avx10Version.toNat && supportsLength c L

/-! ### Capabilities -/

/-- One column of Table 1-3 (41_avx10_versioning.md R75). -/
structure Capabilities where
  opmaskLength : Nat
  xmm : Bool
  ymm : Bool
  zmm : Bool
  ymmEmbeddedRounding : Bool
  zmmEmbeddedRounding : Bool
deriving DecidableEq, Repr

/-- The capabilities of a configuration with AVX10 (41_avx10_versioning.md R75, D18). -/
def capabilities (c : Cfg) : Capabilities :=
  { opmaskLength := opmaskLen c
    xmm := c.vl128
    ymm := c.vl256
    zmm := c.vl512
    ymmEmbeddedRounding := inFeatures c.avx10Version.toNat .ymmEmbeddedRounding
    zmmEmbeddedRounding := c.vl512 }

/-- The first column of Table 1-3: legacy Intel AVX-512 (41_avx10_versioning.md R75). -/
def legacyAvx512Capabilities : Capabilities :=
  { opmaskLength := 64, xmm := true, ymm := true, zmm := true, ymmEmbeddedRounding := false, zmmEmbeddedRounding := true }

/-- The flags of Table 1-2 that are names of `AVX512_FLAGS` (41_avx10_versioning.md R72). -/
def allAvx512Flags : List Avx512Flag :=
  [.avx512f, .avx512cd, .avx512bw, .avx512dq, .avx512Vbmi, .avx512Ifma, .avx512Vnni, .avx512Bf16,
   .avx512Vpopcntdq, .avx512Vbmi2, .avx512Bitalg, .avx512Fp16]

/-- A legacy Intel AVX-512 processor: all flags of Table 1-2 set and AVX10 not supported (41_avx10_versioning.md R75). -/
def isLegacyAvx512 (c : Cfg) : Bool :=
  !c.avx10Supported && allAvx512Flags.all (c.avx512Flags.contains ·) && c.flagVaes && c.flagGfni && c.flagVpclmulqdq

/-- The column of Table 1-3 that applies to a configuration, where one does (41_avx10_versioning.md R75). -/
def tableColumn (c : Cfg) : Option Capabilities :=
  if c.avx10Supported then some (capabilities c)
  else if isLegacyAvx512 c then some legacyAvx512Capabilities
  else none

/-- What the spec says of a binary on a processor. -/
inductive Compatibility where
  /-- Its instructions are all contained in the processor's. -/
  | contained
  /-- No claim in either direction (93_implementation_defined.md U9). -/
  | noClaim
deriving DecidableEq, Repr

/-- A binary compiled as Intel AVX-512 with its vector length limited to 256 bits: AVX10/512 contains all Intel AVX-512
instructions; on AVX10/256 compatibility is not guaranteed, the opmask registers being shorter
(41_avx10_versioning.md R76, 90_conflicts.md C1). -/
def avx512BinaryAt256 (c : Cfg) : Compatibility :=
  if c.avx10Supported ∧ legacyAvx512Capabilities.opmaskLength ≤ opmaskLen c then .contained else .noClaim

/-! ### Detection -/

/-- `HasAvx10(T, L)`: the three-field check over CPUID; leaf 24H is read only if the feature bit is set
(41_avx10_versioning.md R62, R80). -/
def hasAvx10 (draw : (w : Nat) → Nat → BitVec w) (s : State) (T : Nat) (L : VecLen) : Bool :=
  let s1 := queryCpuid draw s 0x07 0x01
  if (readReg32 s1 .edx).getLsbD 19 then
    let b := readReg32 (queryCpuid draw s1 0x24 0x00) .ebx
    if (b.extractLsb' 0 8).toNat < T then false
    else L.bits ≤ maxVlOf (b.getLsbD 18) (b.getLsbD 17) (b.getLsbD 16)
  else false

/-- The check for the EVEX instructions of a flag: both Intel AVX10 and the flag (41_avx10_versioning.md R73, R80). -/
def hasIsa (draw : (w : Nat) → Nat → BitVec w) (s : State) (f : FeatureFlag) (T : Nat) (L : VecLen) : Bool :=
  hasAvx10 draw s T L && ownFlagSet s.launch.cfg f

/-! ### Register files -/

/-- A vector register at a length the configuration supports: its low bits. That the forms alias is general knowledge of
10_state.md R13: PRESUMED, entry 5, safe. The spec gives no vector register file of a processor without AVX10, a legacy
Intel AVX-512 one among them, its register count least of all; that there is then none to read is a DESIGN CHOICE, entry
23, safe. No instruction reads one. -/
def readVector (s : State) (n : Fin 32) (L : VecLen) : Option (BitVec L.bits) :=
  if s.launch.cfg.avx10Supported ∧ supportsLength s.launch.cfg L then some ((s.vec.get n).setWidth L.bits) else none

/-- An opmask register at the configuration's length (10_state.md R14): its low bits. What bits 63:32 are on AVX10/256, or
whether they exist, is not in the source (91_not_in_source.md N11); that they are held and not read is a DESIGN CHOICE,
entry 22, safe. That there is none to read without AVX10, on a legacy Intel AVX-512 processor too, is a DESIGN CHOICE,
entry 23, safe. No instruction reads one. -/
def readOpmask (s : State) (n : Fin 8) : Option (BitVec (opmaskLen s.launch.cfg)) :=
  if s.launch.cfg.avx10Supported then some ((s.opmask.get n).setWidth (opmaskLen s.launch.cfg)) else none

end Sys2Proof.Machine
end

