-- ==== Sys2Proof/Safety.lean ====
section
/-! DEFINITION. What counts as a sound state, and the words the statements are made in. -/

namespace Sys2Proof.Machine

/-! ### The invariant -/

/-- The launch is one 20_memory.md R32 allows: `BASE + len(TEXT) < 2^64`. -/
def Launch.ok (l : Launch) : Bool := l.endAddr < 2 ^ 64

/-- `rip` is END, or stands in the text at an instruction the decoder admits (70_reset_and_hazards.md R118). -/
def State.ripOk (s : State) : Bool :=
  s.atEnd ||
    match fetchInstr s with
    | .ok _ => true
    | .error _ => false

/-- The invariant of the machine: the launch is allowed, data memory is canonical, and `rip` is where a run may stand. -/
def State.Inv (s : State) : Prop := s.launch.ok = true ∧ Memory.wf s.mem = true ∧ s.ripOk = true

/-! ### Frames -/

/-- Every general register but these is as before. -/
def keepsRegsBut (ns : List (Fin 16)) (s t : State) : Prop := ∀ n : Fin 16, n ∉ ns → t.x.get n = s.x.get n

/-- Every byte of data memory reads as before. -/
def keepsMemory (s t : State) : Prop := ∀ a : Nat, readByte t.mem a = readByte s.mem a

/-- The launch parameters and the two register files no instruction touches are as before (10_state.md R13, R14). -/
def keepsFixed (s t : State) : Prop := t.launch = s.launch ∧ t.vec = s.vec ∧ t.opmask = s.opmask

/-- The general registers an instruction writes: its destination, and the four of CPUID (40_cpuid_enumeration.md R43). -/
def destinations : Instr → List (Fin 16)
  | .cpuid => [0, 1, 2, 3]
  | .movRegImm rd _ => [rd.index]
  | .movRegReg rm _ => [rm.index]
  | .movStore _ _ => []
  | .movLoad reg _ => [reg.index]
  | .movzx reg _ => [reg.index]
  | .andImm rm _ => [rm.index]
  | .cmpImm _ _ => []
  | .testImm _ _ => []
  | .shrImm rm _ => [rm.index]
  | .xorReg rm _ => [rm.index]
  | .jz _ => []
  | .jnz _ => []
  | .jb _ => []
  | .jae _ => []
  | .jmp _ => []

/-- The instructions that write flags: AND, CMP, TEST, SHR and XOR (10_state.md R12). -/
def writesFlags : Instr → Bool
  | .cpuid => false
  | .movRegImm _ _ => false
  | .movRegReg _ _ => false
  | .movStore _ _ => false
  | .movLoad _ _ => false
  | .movzx _ _ => false
  | .andImm _ _ => true
  | .cmpImm _ _ => true
  | .testImm _ _ => true
  | .shrImm _ _ => true
  | .xorReg _ _ => true
  | .jz _ => false
  | .jnz _ => false
  | .jb _ => false
  | .jae _ => false
  | .jmp _ => false

/-! ### Words of the statements -/

/-- The byte with `mod` in bits 7:6, `reg` in bits 5:3 and `rm` in bits 2:0, as a number (30_encoding.md R38). -/
def modRMByte (mod reg rm : Nat) : Byte := BitVec.ofNat 8 (64 * mod + 8 * reg + rm)

/-- The number of 1 bits in bits 7:0 (42_helper_instructions.md R81). -/
def lowByteOnes (r : Half) : Nat := (List.range 8).countP fun i => r.getLsbD i

/-- The flags AND, TEST and XOR give for a result, all but AF (42_helper_instructions.md R81). -/
def hasLogicFlags (r : Half) (f : Flags) : Prop :=
  f.CF = false ∧ f.OF = false ∧ (f.ZF = true ↔ r = 0) ∧ f.SF = r.getLsbD 31 ∧
    (f.PF = true ↔ lowByteOnes r % 2 = 0)

/-- The same machine launched with another configuration. -/
def State.withCfg (s : State) (c : Cfg) : State := { s with launch := { s.launch with cfg := c } }

end Sys2Proof.Machine
end

