-- ==== Sys2Proof/Certificates/Slice0/Obligations.lean ====
section
/-! DEFINITION. The statements for the provers. -/

open Sys2Proof Sys2Proof.Machine

/-! ### Encoding -/

/-- Bytes written out from 30_encoding.md R33 and 95_test_vectors.md V6, V7 decode to the instructions they stand for. -/
def Obligations.WrittenOutBytesDecode : Prop :=
  decode [0x0F, 0xA2] = .ok (.cpuid, []) ∧
  decode [0xB9, 0x01, 0x00, 0x00, 0x00] = .ok (.movRegImm .ecx 1, []) ∧
  decode [0x89, 0xD0] = .ok (.movRegReg .eax .edx, []) ∧
  decode [0x89, 0x1F] = .ok (.movStore .edi .ebx, []) ∧
  decode [0x8B, 0x17] = .ok (.movLoad .edx .edi, []) ∧
  decode [0x0F, 0xB6, 0xC3] = .ok (.movzx .eax .ebx, []) ∧
  decode [0x81, 0xE3, 0xFF, 0x00, 0x07, 0x00] = .ok (.andImm .ebx 0x000700FF, []) ∧
  decode [0xC1, 0xE8, 0x13] = .ok (.shrImm .eax 19, []) ∧
  decode [0x74, 0x1B] = .ok (.jz 0x1B, []) ∧
  decode [0x89, 0x04, 0x24] = .error (.form 0x89 0x04)

/-- 30_encoding.md R33, R38, R39: for every well-formed instruction, every operand at every value, its encoding decodes to
it and leaves the bytes after it. -/
def Obligations.DecodeOfEncodeIsTheInstruction : Prop :=
  ∀ (i : Instr) (rest : List Byte), i.wellFormed = true → decode (encode i ++ rest) = .ok (i, rest)

/-- 30_encoding.md R33, R40: whatever decodes is well formed, and its bytes are its encoding: no byte string has a second
reading and no bit of an encoding is ignored. -/
def Obligations.DecodedBytesAreTheEncoding : Prop :=
  ∀ (bs rest : List Byte) (i : Instr), decode bs = .ok (i, rest) → i.wellFormed = true ∧ bs = encode i ++ rest

/-- 30_encoding.md R33, last sentence: at most one row of the opcode table matches any byte string. -/
def Obligations.AtMostOneOpcodeRowMatches : Prop :=
  ∀ (bs : List Byte) (r q : OpcodeRow), r ∈ opcodeTable → q ∈ opcodeTable →
    r.selects bs = true → q.selects bs = true → r = q

/-- 30_encoding.md R33, R40: the decoder by byte 0 and the rows of the opcode table agree: what decodes is selected by the
row of its instruction and takes that row's length, and what a row selects decodes to an instruction of that row. -/
def Obligations.DecoderAgreesWithOpcodeTable : Prop :=
  (∀ (bs rest : List Byte) (i : Instr), decode bs = .ok (i, rest) →
    opcodeRow i ∈ opcodeTable ∧ (opcodeRow i).selects bs = true ∧ bs.length = (opcodeRow i).length + rest.length) ∧
  (∀ (bs : List Byte) (r : OpcodeRow), r ∈ opcodeTable → r.selects bs = true →
    ∃ i rest, decode bs = .ok (i, rest) ∧ opcodeRow i = r)

/-- 30_encoding.md R41, R33, R40: no prefix is admitted: `66`, `67`, `F0`, `F2`, `F3` and `40` to `4F` as byte 0 are refused
as prefixes, and every other byte 0 that starts no row is refused as an unknown opcode, whatever follows. The second is
the outcome of the prefix bytes of which the spec gives no value; the two names are the model's (assumption log entry
20). -/
def Obligations.PrefixBytesAreRefused : Prop :=
  (∀ (b : Byte) (rest : List Byte),
    b = 0x66 ∨ b = 0x67 ∨ b = 0xF0 ∨ b = 0xF2 ∨ b = 0xF3 ∨ (0x40 ≤ b.toNat ∧ b.toNat ≤ 0x4F) →
      decode (b :: rest) = .error (.prefixByte b)) ∧
  (∀ (b : Byte) (rest : List Byte),
    b ∉ ([0x0F, 0x89, 0x8B, 0x31, 0x81, 0xF7, 0xC1, 0x72, 0x73, 0x74, 0x75, 0xEB] : List Byte) →
    ¬(0xB8 ≤ b.toNat ∧ b.toNat ≤ 0xBF) →
    b ∉ ([0x66, 0x67, 0xF0, 0xF2, 0xF3] : List Byte) → ¬(0x40 ≤ b.toNat ∧ b.toNat ≤ 0x4F) →
      decode (b :: rest) = .error (.opcode b))

/-! ### The step -/

/-- A step runs the decoded instruction, and then admits the next fetch (10_state.md R11, 70_reset_and_hazards.md R118; the
model's reading, assumption log entry 8): where the bytes at `rip` decode to `i`, the step is `exec i` when that refuses,
and when it gives a state, that state if it is at END or at an admitted instruction and the next fetch's refusal if not. -/
def Obligations.StepRunsTheDecodedInstruction : Prop :=
  ∀ (s : State) (bs rest : List Byte) (i : Instr),
    s.launch.textFrom s.rip.toNat = some bs → decode bs = .ok (i, rest) →
      (∀ r, exec i s = .refused r → step s = .refused r) ∧
      (∀ t, exec i s = .next t → t.atEnd = true → step s = .next t) ∧
      (∀ t j, exec i s = .next t → fetchInstr t = .ok j → step s = .next t) ∧
      (∀ t r, exec i s = .next t → t.atEnd = false → fetchInstr t = .error r → step s = .refused r)

/-- 60_exceptions.md R98, 70_reset_and_hazards.md R118: no instruction faults, and a step stops as ended exactly at
`rip = END`; that this stop is the model's one Fault is its own choice (assumption log entry 10). -/
def Obligations.NothingFaultsButTheEndOfTheRun : Prop :=
  (∀ (i : Instr) (s : State) (r : Fault), exec i s ≠ .fault r) ∧
  (∀ s : State, step s = .fault .runEnded ↔ s.rip.toNat = s.launch.base.toNat + s.launch.text.length)

/-- 60_exceptions.md R99, 30_encoding.md R33, R40: away from END, a step is refused where `rip` is outside the text or its
bytes do not decode: with the immediate for a SHR whose masked count is 0, else with the bytes and `rip` (assumption log
entry 9 on the count, entry 13 on which bytes). -/
def Obligations.UnadmittedFetchIsRefused : Prop :=
  ∀ s : State, s.rip.toNat ≠ s.launch.base.toNat + s.launch.text.length →
    (s.launch.textFrom s.rip.toNat = none → step s = .refused (.notAdmittedBytes [] s.rip .outsideText)) ∧
    (∀ bs imm, s.launch.textFrom s.rip.toNat = some bs → decode bs = .error (.count imm) →
      step s = .refused (.notAdmittedCount imm)) ∧
    (∀ bs why, s.launch.textFrom s.rip.toNat = some bs → decode bs = .error why → (∀ imm, why ≠ .count imm) →
      step s = .refused (.notAdmittedBytes (bs.take 6) s.rip why))

/-- Every step keeps the invariant: the launch allowed (20_memory.md R32), data memory canonical, `rip` at END or at an
admitted instruction (70_reset_and_hazards.md R118). -/
def Obligations.EveryStepKeepsTheMachineInvariant : Prop :=
  ∀ s t : State, s.Inv → step s = .next t → t.Inv

/-- The state after reset meets the invariant. -/
def Obligations.ResetMeetsTheMachineInvariant : Prop := State.reset.Inv

/-- 70_reset_and_hazards.md R112, 10_state.md R19: after reset `rip` is the entry address BASE. That no program is placed and
no byte of memory is listed is the model's choice (assumption log entries 3 and 4). -/
def Obligations.ResetStartsAtTheEntryAddress : Prop :=
  State.reset.rip = State.reset.launch.base ∧ State.reset.launch.text = [] ∧
    (∀ a : Nat, readByte State.reset.mem a = unlistedByte)

/-- 20_memory.md R30, 70_reset_and_hazards.md R111, 10_state.md R10, R13, R14: no step changes the program text, `BASE`,
`DATA` or `Cfg`, a vector or opmask register, or a register 8 to 15. -/
def Obligations.NoStepChangesWhatTheLaunchFixes : Prop :=
  ∀ s t : State, step s = .next t →
    t.launch = s.launch ∧ t.vec = s.vec ∧ t.opmask = s.opmask ∧ (∀ n : Fin 16, 8 ≤ n.val → t.x.get n = s.x.get n)

/-- 60_exceptions.md R99, R102: where a run may stand, a step is refused only for a memory form on bytes that are not
admitted, for a branch whose target is no 64-bit address, or for a next `rip` that is neither END nor at an admitted
instruction, with what is found there. -/
def Obligations.OnlyTheListedCausesRefuseAStep : Prop :=
  ∀ (s : State) (r : Refusal), s.Inv → step s = .refused r →
    ∃ i, fetchInstr s = .ok i ∧
      ((∃ rm reg, (i = .movStore rm reg ∨ i = .movLoad reg rm) ∧ s.launch.admitted (readReg64 s rm) = false ∧
          r = .notAdmittedAccess (readReg64 s rm)) ∨
        (∃ rel, (i = .jz rel ∨ i = .jnz rel ∨ i = .jb rel ∨ i = .jae rel ∨ i = .jmp rel) ∧
          ¬(0 ≤ (s.rip.toNat : Int) + 2 + rel.toInt ∧ (s.rip.toNat : Int) + 2 + rel.toInt < 2 ^ 64) ∧
          r = .notAdmittedTarget ((s.rip.toNat : Int) + 2 + rel.toInt)) ∨
        (∃ t, exec i s = .next t ∧ t.atEnd = false ∧ fetchInstr t = .error r))

/-! ### Frames over all instructions -/

/-- 10_state.md R10, R20: an instruction that gives a next state leaves every register but its destinations as it was; of a
destination, bits 63:32 are zero (D17). -/
def Obligations.OnlyDestinationsChangeAndTheirUpperHalfIsZero : Prop :=
  ∀ (i : Instr) (s t : State), exec i s = .next t →
    keepsRegsBut (destinations i) s t ∧ (∀ n ∈ destinations i, (t.x.get n).toNat < 2 ^ 32)

/-- 10_state.md R12: the instructions other than AND, CMP, TEST, SHR and XOR leave every flag as it was. -/
def Obligations.OnlyFiveInstructionsWriteFlags : Prop :=
  ∀ (i : Instr) (s t : State), writesFlags i = false → exec i s = .next t → t.flags = s.flags

/-- 20_memory.md R24: the instructions other than the store leave every byte of data memory as it was. -/
def Obligations.OnlyTheStoreChangesMemory : Prop :=
  ∀ (i : Instr) (s t : State), (∀ rm reg, i ≠ .movStore rm reg) → exec i s = .next t → keepsMemory s t

/-- 20_memory.md R30, R32: a byte that an instruction changes is in DATA and not in the program text. -/
def Obligations.EveryChangedByteIsAdmittedData : Prop :=
  ∀ (i : Instr) (s t : State) (a : Nat), exec i s = .next t → readByte t.mem a ≠ readByte s.mem a →
    (∃ r ∈ s.launch.data, r.base ≤ a ∧ a < r.base + r.size) ∧
      ¬(s.launch.base.toNat ≤ a ∧ a < s.launch.base.toNat + s.launch.text.length)

/-- 42_helper_instructions.md R81: no helper instruction reads or writes `Cfg`: under another configuration it gives the
same state, or the same refusal. -/
def Obligations.HelpersDoNotReadTheConfiguration : Prop :=
  ∀ (i : Instr) (s : State) (c : Cfg), i ≠ .cpuid →
    (∀ t, exec i s = .next t → exec i (s.withCfg c) = .next (t.withCfg c)) ∧
    (∀ r, exec i s = .refused r → exec i (s.withCfg c) = .refused r)

/-! ### CPUID -/

/-- 40_cpuid_enumeration.md R43: `0F A2` is CPUID; it completes, writes the answer of the table for the 32-bit leaf in EAX
and sub-leaf in ECX to EAX, EBX, ECX and EDX with zero upper halves, advances `rip` by 2, and changes nothing else. -/
def Obligations.CpuidWritesTheTableAnswer : Prop :=
  (∀ rest, decode (0x0F :: 0xA2 :: rest) = .ok (.cpuid, rest)) ∧
  ∀ s : State, s.rip.toNat + 2 < 2 ^ 64 →
    ∃ t, exec .cpuid s = .next t ∧
      t.x.get 0 = (cpuidTable Config.draw s.launch.cfg ((s.x.get 0).setWidth 32) ((s.x.get 1).setWidth 32) s.draws).eax.setWidth 64 ∧
      t.x.get 3 = (cpuidTable Config.draw s.launch.cfg ((s.x.get 0).setWidth 32) ((s.x.get 1).setWidth 32) s.draws).ebx.setWidth 64 ∧
      t.x.get 1 = (cpuidTable Config.draw s.launch.cfg ((s.x.get 0).setWidth 32) ((s.x.get 1).setWidth 32) s.draws).ecx.setWidth 64 ∧
      t.x.get 2 = (cpuidTable Config.draw s.launch.cfg ((s.x.get 0).setWidth 32) ((s.x.get 1).setWidth 32) s.draws).edx.setWidth 64 ∧
      keepsRegsBut [0, 1, 2, 3] s t ∧ t.flags = s.flags ∧ keepsMemory s t ∧ keepsFixed s t ∧ t.rip = s.rip + 2

/-- 40_cpuid_enumeration.md R44, R46, R47, R49 to R51, R57: for every source of free values, bit 19 of EDX of (07H, 01H) is
`AVX10_SUPPORTED`, and where that is set (24H, 00H) has `AVX10_MAX_SUBLEAF` in EAX and `AVX10_VERSION`, `VL128`, `VL256`
and `VL512` in bits 7:0, 16, 17 and 18 of EBX. -/
def Obligations.EnumeratedFieldsStandAtTheirBits : Prop :=
  ∀ (draw : (w : Nat) → Nat → BitVec w) (c : Cfg) (k : Nat),
    (cpuidTable draw c 0x07 0x01 k).edx.getLsbD 19 = c.avx10Supported ∧
    (c.avx10Supported = true →
      (cpuidTable draw c 0x24 0x00 k).eax = c.avx10MaxSubleaf ∧
      (cpuidTable draw c 0x24 0x00 k).ebx.extractLsb' 0 8 = c.avx10Version ∧
      (cpuidTable draw c 0x24 0x00 k).ebx.getLsbD 16 = c.vl128 ∧
      (cpuidTable draw c 0x24 0x00 k).ebx.getLsbD 17 = c.vl256 ∧
      (cpuidTable draw c 0x24 0x00 k).ebx.getLsbD 18 = c.vl512)

/-- 00_scope.md R5, 30_encoding.md R36: the reference configurations enumerate the masked EBX of the table, whatever the
reserved fields hold. -/
def Obligations.ReferenceConfigurationsEnumerateTheirMaskedEbx : Prop :=
  ∀ (hi : BitVec 13) (lo : BitVec 8),
    leaf24Ebx (referenceCfg 1 false) hi lo &&& 0x000700FF = 0x00030001 ∧
    leaf24Ebx (referenceCfg 2 false) hi lo &&& 0x000700FF = 0x00030002 ∧
    leaf24Ebx (referenceCfg 1 true) hi lo &&& 0x000700FF = 0x00070001 ∧
    leaf24Ebx (referenceCfg 2 true) hi lo &&& 0x000700FF = 0x00070002

/-- 30_encoding.md R37, 40_cpuid_enumeration.md R44, R45, R48, R52 to R56, 93_implementation_defined.md U1 to U6: every value
of an answer the source does not define is given by some source of free values: all of leaf 24H where AVX10 is not
supported or the sub-leaf is not 0, the reserved fields of (24H, 00H), and (07H, 01H) but for bit 19 of EDX. -/
def Obligations.UndefinedAnswersMayBeAnyValue : Prop :=
  ∀ (c : Cfg) (k : Nat) (v : CpuidAnswer),
    (∀ sub, c.avx10Supported = false ∨ sub ≠ 0 → ∃ draw, cpuidTable draw c 0x24 sub k = v) ∧
    (c.avx10Supported = true → ∀ (hi : BitVec 13) (lo : BitVec 8), ∃ draw, cpuidTable draw c 0x24 0x00 k =
      { eax := c.avx10MaxSubleaf, ebx := leaf24Ebx c hi lo, ecx := v.ecx, edx := v.edx }) ∧
    (v.edx.getLsbD 19 = c.avx10Supported → ∃ draw, cpuidTable draw c 0x07 0x01 k = v)

/-- 40_cpuid_enumeration.md R59: two executions of CPUID under one configuration, from any two states with the query
(24H, 00H), agree in EAX and in `EBX & 0x000700FF` where AVX10 is supported (R45: else the leaf does not exist); with the
query (07H, 01H) they agree in `EDX & 0x00080000`, AVX10 supported or not. -/
def Obligations.EnumeratedFieldsAreConstant : Prop :=
  ∀ s t s' t' : State, s.launch.cfg = t.launch.cfg →
    exec .cpuid s = .next s' → exec .cpuid t = .next t' →
    (s.launch.cfg.avx10Supported = true →
      readReg32 s .eax = 0x24 → readReg32 s .ecx = 0 → readReg32 t .eax = 0x24 → readReg32 t .ecx = 0 →
      s'.x.get 0 = t'.x.get 0 ∧ s'.x.get 3 &&& 0x000700FF = t'.x.get 3 &&& 0x000700FF) ∧
    (readReg32 s .eax = 7 → readReg32 s .ecx = 1 → readReg32 t .eax = 7 → readReg32 t .ecx = 1 →
      s'.x.get 2 &&& 0x00080000 = t'.x.get 2 &&& 0x00080000)

/-- 40_cpuid_enumeration.md R58: where a model takes the optional refinements (the model's own field, assumption log entry
14), leaf 0 gives `MAX_BASIC_LEAF` and (07H, 00H) gives `LEAF7_MAX_SUBLEAF` in EAX; where it does not, and at every other
leaf, any answer is given by some source of free values. -/
def Obligations.RangeLeavesAreAnsweredOnlyWhereExposed : Prop :=
  ∀ (c : Cfg) (k : Nat) (leaf sub : Half),
    (c.exposeRangeLeaves = true → ∀ draw,
      (cpuidTable draw c 0 sub k).eax = c.maxBasicLeaf ∧ (cpuidTable draw c 7 0 k).eax = c.leaf7MaxSubleaf) ∧
    (leaf ≠ 0x24 → ¬(leaf = 7 ∧ sub = 1) → c.exposeRangeLeaves = false ∨ (leaf ≠ 0 ∧ ¬(leaf = 7 ∧ sub = 0)) →
      ∀ v : CpuidAnswer, ∃ draw, cpuidTable draw c leaf sub k = v)

/-! ### Versioning -/

/-- 41_avx10_versioning.md R80: for every source of free values, the detection function run over CPUID answers exactly
whether AVX10 is supported at version `T` or later with length `L`. -/
def Obligations.DetectionAgreesWithTheConfiguration : Prop :=
  ∀ (draw : (w : Nat) → Nat → BitVec w) (s : State) (T : Nat) (L : VecLen),
    hasAvx10 draw s T L = true ↔
      s.launch.cfg.avx10Supported = true ∧ T ≤ s.launch.cfg.avx10Version.toNat ∧ L.bits ≤ maxVL s.launch.cfg

/-- 41_avx10_versioning.md R65, R67: a program written for version `T` at length `L` may test for no more: what is detected
is detected for every earlier version and every shorter length too. -/
def Obligations.DetectionIsDownwardClosed : Prop :=
  ∀ (draw : (w : Nat) → Nat → BitVec w) (s : State) (T T' : Nat) (L L' : VecLen),
    T' ≤ T → L'.bits ≤ L.bits → hasAvx10 draw s T L = true → hasAvx10 draw s T' L' = true

/-- 41_avx10_versioning.md R72, R73: on a well-formed configuration the EVEX instructions of VAES, GFNI and VPCLMULQDQ may be
used at a length exactly where AVX10 is supported, that flag is set and the length is at most the maximum, and those of
the twelve other flags exactly where AVX10 is supported and the length is at most the maximum; the check over CPUID for
version 1 answers the same, for every source of free values. -/
def Obligations.EvexSetsNeedBothChecks : Prop :=
  ∀ (draw : (w : Nat) → Nat → BitVec w) (s : State) (L : VecLen), cfgWellFormed s.launch.cfg = true →
    (hasIsa draw s .vaes 1 L = true ↔
      s.launch.cfg.avx10Supported = true ∧ s.launch.cfg.flagVaes = true ∧ L.bits ≤ maxVL s.launch.cfg) ∧
    (hasIsa draw s .gfni 1 L = true ↔
      s.launch.cfg.avx10Supported = true ∧ s.launch.cfg.flagGfni = true ∧ L.bits ≤ maxVL s.launch.cfg) ∧
    (hasIsa draw s .vpclmulqdq 1 L = true ↔
      s.launch.cfg.avx10Supported = true ∧ s.launch.cfg.flagVpclmulqdq = true ∧ L.bits ≤ maxVL s.launch.cfg) ∧
    (∀ f : Avx512Flag, hasIsa draw s (.avx512 f) 1 L = true ↔
      s.launch.cfg.avx10Supported = true ∧ L.bits ≤ maxVL s.launch.cfg) ∧
    (∀ f : FeatureFlag, isaUsable s.launch.cfg f L = hasIsa draw s f 1 L)

/-- 41_avx10_versioning.md R68, R69, R72, R73: where AVX10 is supported, whatever the vector-length bits, the scalar
instructions of the twelve flags are available, those of VAES, GFNI and VPCLMULQDQ with their own flag, and the opmask
instructions at the length 64 where `VL512` is set and 32 where it is not. -/
def Obligations.ScalarAndOpmaskInstructionsAreAvailable : Prop :=
  ∀ c : Cfg, c.avx10Supported = true →
    (∀ f : Avx512Flag, scalarAvailable c (.avx512 f) = true) ∧
    (scalarAvailable c .vaes = true ↔ c.flagVaes = true) ∧
    (scalarAvailable c .gfni = true ↔ c.flagGfni = true) ∧
    (scalarAvailable c .vpclmulqdq = true ↔ c.flagVpclmulqdq = true) ∧
    (c.vl512 = true → opmaskInstructionLength c = some 64) ∧
    (c.vl512 = false → opmaskInstructionLength c = some 32)

/-- 41_avx10_versioning.md R67, R69, R70, R77: on a well-formed configuration with AVX10 the maximum length is 256 or 512,
the opmask length 32 or 64 with it, a length is supported exactly where its bit is set, and an E-core has 256. -/
def Obligations.LengthBitsAgreeWithTheMaximumLength : Prop :=
  ∀ c : Cfg, cfgWellFormed c = true → c.avx10Supported = true →
    (maxVL c = 256 ∧ opmaskLen c = 32 ∨ maxVL c = 512 ∧ opmaskLen c = 64) ∧
    supportsLength c .v128 = c.vl128 ∧ supportsLength c .v256 = c.vl256 ∧ supportsLength c .v512 = c.vl512 ∧
    (c.isPcore = false → maxVL c = 256 ∧ opmaskLen c = 32)

/-- 41_avx10_versioning.md R75: the capability functions give the columns of Table 1-3. -/
def Obligations.CapabilitiesReproduceTheTable : Prop :=
  capabilities (referenceCfg 1 false) = ⟨32, true, true, false, false, false⟩ ∧
  capabilities (referenceCfg 2 false) = ⟨32, true, true, false, true, false⟩ ∧
  capabilities (referenceCfg 1 true) = ⟨64, true, true, true, false, true⟩ ∧
  capabilities (referenceCfg 2 true) = ⟨64, true, true, true, true, true⟩ ∧
  legacyAvx512Capabilities = ⟨64, true, true, true, false, true⟩

/-- 41_avx10_versioning.md R65, R71, R74: versions are inclusive; version 1 is the sets of Table 1-2 and nothing else; YMM
embedded rounding begins with version 2. -/
def Obligations.VersionsAreInclusive : Prop :=
  (∀ (N : Nat) (f : Feature), inFeatures N f = true → inFeatures (N + 1) f = true) ∧
  (∀ f : Feature, inFeatures 1 f = true ↔ ∃ g, f = .isa g) ∧
  (∀ N : Nat, inFeatures N .ymmEmbeddedRounding = true ↔ 2 ≤ N)

/-- 60_exceptions.md R105: the software of an AVX10/256 virtual machine runs under a configuration with `VL512 = 0`. Under
every well-formed one with AVX10 the maximum length is 256 and the opmask length 32, and what the detection function
over CPUID detects is the version that configuration holds, whichever it is, at the lengths up to 256. `guest256` gives
such a configuration; that it keeps the version is the model's choice (assumption log entry 21) and is not stated. -/
def Obligations.GuestOfTheVirtualMachineSeesAvx10At256 : Prop :=
  (∀ g : Cfg, cfgWellFormed g = true → g.avx10Supported = true → g.vl512 = false →
    maxVL g = 256 ∧ opmaskLen g = 32 ∧
    ∀ (draw : (w : Nat) → Nat → BitVec w) (s : State) (T : Nat) (L : VecLen),
      hasAvx10 draw (s.withCfg g) T L = true ↔ T ≤ g.avx10Version.toNat ∧ L ≠ .v512) ∧
  (∀ c : Cfg, cfgWellFormed c = true → c.avx10Supported = true →
    cfgWellFormed (guest256 c) = true ∧ (guest256 c).avx10Supported = true ∧ (guest256 c).vl512 = false)

/-- 41_avx10_versioning.md R76, 90_conflicts.md C1: of a binary compiled as Intel AVX-512 at 256 bits the model says
something on AVX10/512 alone. -/
def Obligations.LegacyBinaryIsContainedOnlyAt512 : Prop :=
  ∀ c : Cfg, c.avx10Supported = true → (avx512BinaryAt256 c = .contained ↔ c.vl512 = true)

/-! ### Data movement -/

/-- 42_helper_instructions.md R82: `B8+rd id`; the immediate in bits 31:0, zero above, nothing else changed. -/
def Obligations.MovImmediateResult : Prop :=
  ∀ (rd : Reg) (imm : Half),
    (∀ rest, decode (BitVec.ofNat 8 (0xB8 + rd.index.val) :: imm.extractLsb' 0 8 :: imm.extractLsb' 8 8 ::
        imm.extractLsb' 16 8 :: imm.extractLsb' 24 8 :: rest) = .ok (.movRegImm rd imm, rest)) ∧
    ∀ s : State, s.rip.toNat + 5 < 2 ^ 64 →
      ∃ t, exec (.movRegImm rd imm) s = .next t ∧ t.x.get rd.index = imm.setWidth 64 ∧
        keepsRegsBut [rd.index] s t ∧ t.flags = s.flags ∧ keepsMemory s t ∧ keepsFixed s t ∧ t.rip = s.rip + 5

/-- 42_helper_instructions.md R83: `89 /r` with `mod = 11`; the source's low half, zero above, nothing else changed. -/
def Obligations.MovRegisterResult : Prop :=
  ∀ rm reg : Reg,
    (∀ rest, decode (0x89 :: modRMByte 3 reg.index rm.index :: rest) = .ok (.movRegReg rm reg, rest)) ∧
    ∀ s : State, s.rip.toNat + 2 < 2 ^ 64 →
      ∃ t, exec (.movRegReg rm reg) s = .next t ∧
        t.x.get rm.index = ((s.x.get reg.index).setWidth 32).setWidth 64 ∧
        keepsRegsBut [rm.index] s t ∧ t.flags = s.flags ∧ keepsMemory s t ∧ keepsFixed s t ∧ t.rip = s.rip + 2

/-- 42_helper_instructions.md R84, 20_memory.md R22, R23, R32: the store, at any alignment. The address is the full 64-bit
register, never RSP or RBP; the four bytes from it, least significant first, are the source's low 32 bits; every other byte
is as before. -/
def Obligations.StoreResult : Prop :=
  ∀ rm reg : Reg,
    (rm ≠ .esp → rm ≠ .ebp →
      ∀ rest, decode (0x89 :: modRMByte 0 reg.index rm.index :: rest) = .ok (.movStore rm reg, rest)) ∧
    (rm = .esp ∨ rm = .ebp →
      ∀ rest, ∃ why, decode (0x89 :: modRMByte 0 reg.index rm.index :: rest) = .error why) ∧
    ∀ s : State,
      (s.launch.admitted (readReg64 s rm) = false →
        exec (.movStore rm reg) s = .refused (.notAdmittedAccess (readReg64 s rm))) ∧
      (s.launch.admitted (readReg64 s rm) = true → s.rip.toNat + 2 < 2 ^ 64 →
        ∃ t, exec (.movStore rm reg) s = .next t ∧
          (Memory.wf s.mem = true → ∀ k, k < 4 →
            readByte t.mem ((readReg64 s rm).toNat + k) = (s.x.get reg.index).extractLsb' (8 * k) 8) ∧
          (∀ a : Nat, a < (readReg64 s rm).toNat ∨ (readReg64 s rm).toNat + 3 < a →
            readByte t.mem a = readByte s.mem a) ∧
          keepsRegsBut [] s t ∧ t.flags = s.flags ∧ keepsFixed s t ∧ t.rip = s.rip + 2)

/-- 42_helper_instructions.md R85, 20_memory.md R22, R23, R32: the load, at any alignment. The address, never
in RSP or RBP, is read before the destination is written; the byte at the lowest address is the least significant. -/
def Obligations.LoadResult : Prop :=
  ∀ reg rm : Reg,
    (rm ≠ .esp → rm ≠ .ebp →
      ∀ rest, decode (0x8B :: modRMByte 0 reg.index rm.index :: rest) = .ok (.movLoad reg rm, rest)) ∧
    (rm = .esp ∨ rm = .ebp →
      ∀ rest, ∃ why, decode (0x8B :: modRMByte 0 reg.index rm.index :: rest) = .error why) ∧
    (∀ rest, ∃ why, decode (0x8B :: modRMByte 3 reg.index rm.index :: rest) = .error why) ∧
    ∀ s : State,
      (s.launch.admitted (readReg64 s rm) = false →
        exec (.movLoad reg rm) s = .refused (.notAdmittedAccess (readReg64 s rm))) ∧
      (s.launch.admitted (readReg64 s rm) = true → s.rip.toNat + 2 < 2 ^ 64 →
        ∃ t, exec (.movLoad reg rm) s = .next t ∧
          (∀ k, k < 4 → (t.x.get reg.index).extractLsb' (8 * k) 8 = readByte s.mem ((readReg64 s rm).toNat + k)) ∧
          (t.x.get reg.index).toNat < 2 ^ 32 ∧
          keepsRegsBut [reg.index] s t ∧ t.flags = s.flags ∧ keepsMemory s t ∧ keepsFixed s t ∧ t.rip = s.rip + 2)

/-- 42_helper_instructions.md R84, R85, 20_memory.md R22, R27: a load from where a store has just been made gives what was
stored. -/
def Obligations.LoadAfterStoreGivesTheStoredValue : Prop :=
  ∀ (rm reg reg' rm' : Reg) (s t u : State), Memory.wf s.mem = true →
    exec (.movStore rm reg) s = .next t → readReg64 t rm' = readReg64 s rm → exec (.movLoad reg' rm') t = .next u →
      readReg32 u reg' = readReg32 s reg

/-- 42_helper_instructions.md R86: `0F B6 /r`; the source's low byte, zero above; a source number 4 to 7 is refused. -/
def Obligations.MovzxResult : Prop :=
  ∀ reg rm : Reg,
    (rm.index.val < 4 →
      ∀ rest, decode (0x0F :: 0xB6 :: modRMByte 3 reg.index rm.index :: rest) = .ok (.movzx reg rm, rest)) ∧
    (4 ≤ rm.index.val →
      ∀ rest, ∃ why, decode (0x0F :: 0xB6 :: modRMByte 3 reg.index rm.index :: rest) = .error why) ∧
    ∀ s : State, s.rip.toNat + 3 < 2 ^ 64 →
      ∃ t, exec (.movzx reg rm) s = .next t ∧
        t.x.get reg.index = ((s.x.get rm.index).setWidth 8).setWidth 64 ∧
        keepsRegsBut [reg.index] s t ∧ t.flags = s.flags ∧ keepsMemory s t ∧ keepsFixed s t ∧ t.rip = s.rip + 3

/-! ### Logic, compare and shift -/

/-- 42_helper_instructions.md R87, R81; AF is a free value and is not stated. -/
def Obligations.AndResult : Prop :=
  ∀ (rm : Reg) (imm : Half),
    (∀ rest, decode (0x81 :: modRMByte 3 4 rm.index :: imm.extractLsb' 0 8 :: imm.extractLsb' 8 8 ::
        imm.extractLsb' 16 8 :: imm.extractLsb' 24 8 :: rest) = .ok (.andImm rm imm, rest)) ∧
    ∀ s : State, s.rip.toNat + 6 < 2 ^ 64 →
      ∃ t, exec (.andImm rm imm) s = .next t ∧
        t.x.get rm.index = ((s.x.get rm.index).setWidth 32 &&& imm).setWidth 64 ∧
        hasLogicFlags ((s.x.get rm.index).setWidth 32 &&& imm) t.flags ∧
        keepsRegsBut [rm.index] s t ∧ keepsMemory s t ∧ keepsFixed s t ∧ t.rip = s.rip + 6

/-- 42_helper_instructions.md R88: all six flags of the subtraction; no register is written. -/
def Obligations.CmpResult : Prop :=
  ∀ (rm : Reg) (imm : Half),
    (∀ rest, decode (0x81 :: modRMByte 3 7 rm.index :: imm.extractLsb' 0 8 :: imm.extractLsb' 8 8 ::
        imm.extractLsb' 16 8 :: imm.extractLsb' 24 8 :: rest) = .ok (.cmpImm rm imm, rest)) ∧
    ∀ s : State, s.rip.toNat + 6 < 2 ^ 64 →
      ∃ t, exec (.cmpImm rm imm) s = .next t ∧
        (t.flags.CF = true ↔ (readReg32 s rm).toNat < imm.toNat) ∧
        (t.flags.ZF = true ↔ readReg32 s rm = imm) ∧
        t.flags.SF = (readReg32 s rm - imm).getLsbD 31 ∧
        (t.flags.OF = true ↔ (readReg32 s rm).getLsbD 31 ≠ imm.getLsbD 31 ∧
          (readReg32 s rm - imm).getLsbD 31 ≠ (readReg32 s rm).getLsbD 31) ∧
        (t.flags.PF = true ↔ lowByteOnes (readReg32 s rm - imm) % 2 = 0) ∧
        (t.flags.AF = true ↔ (readReg32 s rm).toNat % 16 < imm.toNat % 16) ∧
        keepsRegsBut [] s t ∧ keepsMemory s t ∧ keepsFixed s t ∧ t.rip = s.rip + 6

/-- 42_helper_instructions.md R92: after CMP, OF reports signed overflow of the exact difference. -/
def Obligations.CmpOverflowIsSignedOverflow : Prop :=
  ∀ (rm : Reg) (imm : Half) (s t : State), exec (.cmpImm rm imm) s = .next t →
    (t.flags.OF = true ↔
      (readReg32 s rm).toInt - imm.toInt < -2 ^ 31 ∨ 2 ^ 31 ≤ (readReg32 s rm).toInt - imm.toInt)

/-- 42_helper_instructions.md R89, R81; AF is a free value and is not stated; no register is written. -/
def Obligations.TestResult : Prop :=
  ∀ (rm : Reg) (imm : Half),
    (∀ rest, decode (0xF7 :: modRMByte 3 0 rm.index :: imm.extractLsb' 0 8 :: imm.extractLsb' 8 8 ::
        imm.extractLsb' 16 8 :: imm.extractLsb' 24 8 :: rest) = .ok (.testImm rm imm, rest)) ∧
    (∀ e rest, 1 ≤ e → e < 8 → ∃ why, decode (0xF7 :: modRMByte 3 e rm.index :: rest) = .error why) ∧
    ∀ s : State, s.rip.toNat + 6 < 2 ^ 64 →
      ∃ t, exec (.testImm rm imm) s = .next t ∧
        hasLogicFlags ((s.x.get rm.index).setWidth 32 &&& imm) t.flags ∧
        keepsRegsBut [] s t ∧ keepsMemory s t ∧ keepsFixed s t ∧ t.rip = s.rip + 6

/-- 42_helper_instructions.md R90, 30_encoding.md R33: a masked count of 0 does not decode, and its meaning is refused; a
count of 1 to 31 shifts logically. AF, and OF for a
count above 1, are free values and are not stated. -/
def Obligations.ShrResult : Prop :=
  ∀ (rm : Reg) (imm : Byte),
    (∀ rest, decode (0xC1 :: modRMByte 3 5 rm.index :: imm :: rest) =
      if imm.toNat % 32 = 0 then .error (.count imm) else .ok (.shrImm rm imm, rest)) ∧
    (∀ e rest, e ≠ 5 → e < 8 → ∃ why, decode (0xC1 :: modRMByte 3 e rm.index :: rest) = .error why) ∧
    ∀ s : State,
      (imm.toNat % 32 = 0 → exec (.shrImm rm imm) s = .refused (.notAdmittedCount imm)) ∧
      (imm.toNat % 32 ≠ 0 → s.rip.toNat + 3 < 2 ^ 64 →
        ∃ t, exec (.shrImm rm imm) s = .next t ∧
          (t.x.get rm.index).toNat = (readReg32 s rm).toNat / 2 ^ (imm.toNat % 32) ∧
          t.flags.CF = (readReg32 s rm).getLsbD (imm.toNat % 32 - 1) ∧
          (t.flags.ZF = true ↔ (readReg32 s rm).toNat < 2 ^ (imm.toNat % 32)) ∧
          t.flags.SF = false ∧
          (t.flags.PF = true ↔ lowByteOnes (readReg32 s rm >>> (imm.toNat % 32)) % 2 = 0) ∧
          (imm.toNat % 32 = 1 → t.flags.OF = (readReg32 s rm).getLsbD 31) ∧
          keepsRegsBut [rm.index] s t ∧ keepsMemory s t ∧ keepsFixed s t ∧ t.rip = s.rip + 3)

/-- 42_helper_instructions.md R91, R81; AF is a free value and is not stated. -/
def Obligations.XorResult : Prop :=
  ∀ rm reg : Reg,
    (∀ rest, decode (0x31 :: modRMByte 3 reg.index rm.index :: rest) = .ok (.xorReg rm reg, rest)) ∧
    ∀ s : State, s.rip.toNat + 2 < 2 ^ 64 →
      ∃ t, exec (.xorReg rm reg) s = .next t ∧
        t.x.get rm.index = ((s.x.get rm.index).setWidth 32 ^^^ (s.x.get reg.index).setWidth 32).setWidth 64 ∧
        hasLogicFlags ((s.x.get rm.index).setWidth 32 ^^^ (s.x.get reg.index).setWidth 32) t.flags ∧
        (rm = reg → t.x.get rm.index = 0 ∧ t.flags.ZF = true ∧ t.flags.PF = true) ∧
        keepsRegsBut [rm.index] s t ∧ keepsMemory s t ∧ keepsFixed s t ∧ t.rip = s.rip + 2

/-! ### Control transfer -/

/-- 42_helper_instructions.md R93, R94: JZ goes to the target where ZF is set and JNZ where it is clear, and past the
instruction otherwise; nothing but `rip` changes. -/
def Obligations.ZeroBranchResults : Prop :=
  ∀ rel : Byte,
    (∀ rest, decode (0x74 :: rel :: rest) = .ok (.jz rel, rest) ∧ decode (0x75 :: rel :: rest) = .ok (.jnz rel, rest)) ∧
    ∀ s : State,
      (0 ≤ (s.rip.toNat : Int) + 2 + rel.toInt → (s.rip.toNat : Int) + 2 + rel.toInt < 2 ^ 64 →
        (s.flags.ZF = true → exec (.jz rel) s = .next { s with rip := s.rip + 2 + rel.signExtend 64 }) ∧
        (s.flags.ZF = false → exec (.jnz rel) s = .next { s with rip := s.rip + 2 + rel.signExtend 64 })) ∧
      (s.rip.toNat + 2 < 2 ^ 64 →
        (s.flags.ZF = false → exec (.jz rel) s = .next { s with rip := s.rip + 2 }) ∧
        (s.flags.ZF = true → exec (.jnz rel) s = .next { s with rip := s.rip + 2 }))

/-- 42_helper_instructions.md R95, R96: JB goes to the target where CF is set and JAE where it is clear, and past the
instruction otherwise; nothing but `rip` changes. -/
def Obligations.CarryBranchResults : Prop :=
  ∀ rel : Byte,
    (∀ rest, decode (0x72 :: rel :: rest) = .ok (.jb rel, rest) ∧ decode (0x73 :: rel :: rest) = .ok (.jae rel, rest)) ∧
    ∀ s : State,
      (0 ≤ (s.rip.toNat : Int) + 2 + rel.toInt → (s.rip.toNat : Int) + 2 + rel.toInt < 2 ^ 64 →
        (s.flags.CF = true → exec (.jb rel) s = .next { s with rip := s.rip + 2 + rel.signExtend 64 }) ∧
        (s.flags.CF = false → exec (.jae rel) s = .next { s with rip := s.rip + 2 + rel.signExtend 64 })) ∧
      (s.rip.toNat + 2 < 2 ^ 64 →
        (s.flags.CF = false → exec (.jb rel) s = .next { s with rip := s.rip + 2 }) ∧
        (s.flags.CF = true → exec (.jae rel) s = .next { s with rip := s.rip + 2 }))

/-- 42_helper_instructions.md R97, 10_state.md R11: JMP goes to the target, backwards for a negative displacement; a target
that is no 64-bit address is refused. -/
def Obligations.JmpResult : Prop :=
  ∀ rel : Byte,
    (∀ rest, decode (0xEB :: rel :: rest) = .ok (.jmp rel, rest)) ∧
    ∀ s : State,
      (0 ≤ (s.rip.toNat : Int) + 2 + rel.toInt → (s.rip.toNat : Int) + 2 + rel.toInt < 2 ^ 64 →
        exec (.jmp rel) s = .next { s with rip := s.rip + 2 + rel.signExtend 64 }) ∧
      ((s.rip.toNat : Int) + 2 + rel.toInt < 0 ∨ 2 ^ 64 ≤ (s.rip.toNat : Int) + 2 + rel.toInt →
        exec (.jmp rel) s = .refused (.notAdmittedTarget ((s.rip.toNat : Int) + 2 + rel.toInt)))

/-- 42_helper_instructions.md R95, R96, R92: after `CMP a, b`, JB is taken exactly where `a` is below `b` unsigned, and JAE
exactly where it is not. -/
def Obligations.BranchAfterCompareIsUnsigned : Prop :=
  ∀ (rm : Reg) (imm : Half) (rel : Byte) (s t u v : State),
    exec (.cmpImm rm imm) s = .next t → exec (.jb rel) t = .next u → exec (.jae rel) t = .next v →
      u.rip = t.rip + 2 + (if (readReg32 s rm).toNat < imm.toNat then rel.signExtend 64 else 0) ∧
      v.rip = t.rip + 2 + (if (readReg32 s rm).toNat < imm.toNat then 0 else rel.signExtend 64)
end

