-- ==== Sys2Proof/Laws/Memory.lean ====
section
/-! SUPPORT. The laws of data memory: read after write, every other byte as before, and the canonical form kept. -/

namespace Sys2Proof.Machine

theorem wfFrom_mono {lo hi : Nat} {m : Memory} (h : wfFrom hi m = true) (le : lo ≤ hi) : wfFrom lo m = true := by
  cases m with
  | nil => rfl
  | cons c m =>
    simp only [wfFrom, Bool.and_eq_true, decide_eq_true_eq] at h ⊢
    exact ⟨⟨⟨by omega, h.1.1.2⟩, h.1.2⟩, h.2⟩

/-- Nothing is listed below where the cells begin. -/
theorem readByte_below {lo a : Nat} {m : Memory} (h : wfFrom lo m = true) (lt : a < lo) :
    readByte m a = unlistedByte := by
  induction m generalizing lo with
  | nil => rfl
  | cons c m ih =>
    simp only [wfFrom, Bool.and_eq_true, decide_eq_true_eq] at h
    have : a ≠ c.1 := by omega
    simp only [readByte, if_neg this]
    exact ih h.2 (by omega)

theorem wfFrom_consCell {lo a : Nat} {v : Byte} {m : Memory} (h : wfFrom (a + 1) m = true) (le : lo ≤ a)
    (lt : a < 2 ^ 64) : wfFrom lo (consCell a v m) = true := by
  unfold consCell
  split
  · exact wfFrom_mono h (by omega)
  · simp_all [wfFrom]

theorem wfFrom_writeByte {lo a : Nat} {m : Memory} (v : Byte) (h : wfFrom lo m = true) (le : lo ≤ a) (lt : a < 2 ^ 64) :
    wfFrom lo (writeByte m a v) = true := by
  induction m generalizing lo with
  | nil => exact wfFrom_consCell rfl le lt
  | cons c m ih =>
    obtain ⟨b, w⟩ := c
    have hc := h
    simp only [wfFrom, Bool.and_eq_true, decide_eq_true_eq] at hc
    unfold writeByte
    split
    · exact wfFrom_consCell (by simp_all [wfFrom]) le lt
    · split
      · next e => subst e; exact wfFrom_consCell hc.2 le lt
      · simp only [wfFrom, Bool.and_eq_true, decide_eq_true_eq]
        exact ⟨hc.1, ih hc.2 (by omega)⟩

/-- A byte write keeps the canonical form. -/
theorem wf_writeByte {m : Memory} {a : Nat} (v : Byte) (h : Memory.wf m = true) (lt : a < 2 ^ 64) :
    Memory.wf (writeByte m a v) = true := wfFrom_writeByte v h (Nat.zero_le a) lt

/-- A 4-byte write that does not pass the top of the address space keeps the canonical form. -/
theorem wf_write32 {m : Memory} {a : Nat} (v : Half) (h : Memory.wf m = true) (lt : a + 3 < 2 ^ 64) :
    Memory.wf (write32 m a v) = true :=
  wf_writeByte _ (wf_writeByte _ (wf_writeByte _ (wf_writeByte _ h (by omega)) (by omega)) (by omega)) lt

/-- The memory after reset is canonical. -/
theorem wf_reset : Memory.wf State.reset.mem = true := rfl

theorem readByte_consCell_same {a : Nat} {v : Byte} {m : Memory} (h : readByte m a = unlistedByte) :
    readByte (consCell a v m) a = v := by
  unfold consCell
  split
  · next e => rw [h, e]
  · simp [readByte]

theorem readByte_consCell_other {a b : Nat} {v : Byte} {m : Memory} (h : b ≠ a) :
    readByte (consCell a v m) b = readByte m b := by
  unfold consCell
  split
  · rfl
  · simp [readByte, h]

theorem readByte_writeByte_same_from {lo a : Nat} {m : Memory} (v : Byte) (h : wfFrom lo m = true) :
    readByte (writeByte m a v) a = v := by
  induction m generalizing lo with
  | nil => exact readByte_consCell_same rfl
  | cons c m ih =>
    obtain ⟨b, w⟩ := c
    have hc := h
    simp only [wfFrom, Bool.and_eq_true, decide_eq_true_eq] at hc
    unfold writeByte
    split
    · next lt =>
      have : wfFrom b ((b, w) :: m) = true := by simp_all [wfFrom]
      exact readByte_consCell_same (readByte_below this lt)
    · split
      · next e => subst e; exact readByte_consCell_same (readByte_below hc.2 (by omega))
      · next ne => simpa only [readByte, if_neg ne] using ih hc.2

/-- A byte that has been written reads as written. -/
theorem readByte_writeByte_same {m : Memory} (a : Nat) (v : Byte) (h : Memory.wf m = true) :
    readByte (writeByte m a v) a = v := readByte_writeByte_same_from v h

/-- A byte write leaves every other byte as it was, whatever the memory. -/
theorem readByte_writeByte_other {m : Memory} {a b : Nat} (v : Byte) (h : b ≠ a) :
    readByte (writeByte m a v) b = readByte m b := by
  induction m with
  | nil => exact readByte_consCell_other h
  | cons c m ih =>
    obtain ⟨d, w⟩ := c
    unfold writeByte
    split
    · exact readByte_consCell_other h
    · split
      · next e => subst e; simp only [readByte_consCell_other h, readByte, if_neg h]
      · simp only [readByte, ih]

/-- A 4-byte write leaves every byte outside its four as it was. -/
theorem readByte_write32_other {m : Memory} {a b : Nat} (v : Half) (h : b < a ∨ a + 3 < b) :
    readByte (write32 m a v) b = readByte m b := by
  unfold write32
  rw [readByte_writeByte_other _ (by omega), readByte_writeByte_other _ (by omega),
    readByte_writeByte_other _ (by omega), readByte_writeByte_other _ (by omega)]

/-- The four bytes of a 4-byte write, the least significant at the lowest address (20_memory.md R22). -/
theorem readByte_write32 {m : Memory} {a : Nat} (v : Half) (h : Memory.wf m = true) (lt : a + 3 < 2 ^ 64) :
    readByte (write32 m a v) a = byteOf v 0 ∧ readByte (write32 m a v) (a + 1) = byteOf v 1 ∧
      readByte (write32 m a v) (a + 2) = byteOf v 2 ∧ readByte (write32 m a v) (a + 3) = byteOf v 3 := by
  have h0 := wf_writeByte (byteOf v 0) h (a := a) (by omega)
  have h1 := wf_writeByte (byteOf v 1) h0 (a := a + 1) (by omega)
  have h2 := wf_writeByte (byteOf v 2) h1 (a := a + 2) (by omega)
  unfold write32
  refine ⟨?_, ?_, ?_, readByte_writeByte_same _ _ h2⟩
  · rw [readByte_writeByte_other _ (by omega), readByte_writeByte_other _ (by omega),
      readByte_writeByte_other _ (by omega), readByte_writeByte_same _ _ h]
  · rw [readByte_writeByte_other _ (by omega), readByte_writeByte_other _ (by omega),
      readByte_writeByte_same _ _ h0]
  · rw [readByte_writeByte_other _ (by omega), readByte_writeByte_same _ _ h1]

/-- The four bytes of a 32-bit value, assembled again. -/
theorem le32_byteOf (v : Half) : le32 (byteOf v 0) (byteOf v 1) (byteOf v 2) (byteOf v 3) = v := by
  apply BitVec.eq_of_getLsbD_eq
  intro i hi
  simp only [le32, byteOf, BitVec.getLsbD_append, BitVec.getLsbD_extractLsb']
  split
  · simp_all
  · split
    · have : 8 * 1 + (i - 8) = i := by omega
      simp_all
    · split
      · have : 8 * 2 + (i - 8 - 8) = i := by omega
        simp_all
      · have : 8 * 3 + (i - 8 - 8 - 8) = i := by omega
        simp_all
        omega

/-- What a 4-byte write stores is what a 4-byte read at the same address gives. -/
theorem read32_write32 {m : Memory} {a : Nat} (v : Half) (h : Memory.wf m = true) (lt : a + 3 < 2 ^ 64) :
    read32 (write32 m a v) a = v := by
  obtain ⟨h0, h1, h2, h3⟩ := readByte_write32 v h lt
  rw [read32, h0, h1, h2, h3, le32_byteOf]

/-- What admission gives: the four bytes are data and the access does not pass the top (20_memory.md R32). -/
theorem admitted_iff (l : Launch) (a : Word) :
    l.admitted a = true ↔
      (l.inData a.toNat = true ∧ l.inData (a.toNat + 1) = true ∧ l.inData (a.toNat + 2) = true ∧
        l.inData (a.toNat + 3) = true) ∧ a.toNat + 3 < 2 ^ 64 := by
  simp [Launch.admitted, and_assoc]

end Sys2Proof.Machine
end

