-- ==== Sys2Proof/Laws/Decode.lean ====
section
/-! SUPPORT. The parts of an encoding taken apart and put together again: register fields, the ModRM byte, immediates. -/

namespace Sys2Proof

@[simp] theorem Reg.ofBits_bits (r : Reg) : Reg.ofBits r.bits = r := by cases r <;> rfl
@[simp] theorem Reg.bits_ofBits (b : BitVec 3) : (Reg.ofBits b).bits = b := by revert b; decide

/-- The 3-bit field of a register is its number (10_state.md R10). -/
theorem Reg.bits_eq_index (r : Reg) : r.bits = BitVec.ofNat 3 r.index.val := by cases r <;> rfl

/-- The register numbers of the eight registers an instruction can name are different. -/
theorem Reg.index_injective {r q : Reg} (h : r.index = q.index) : r = q := by
  revert h; cases r <;> cases q <;> decide

/-- An instruction names no register above number 7 (10_state.md R10). -/
theorem Reg.index_lt (r : Reg) : r.index.val < 8 := by cases r <;> decide

@[simp] theorem modOf_modRM (m : BitVec 2) (a b : BitVec 3) : modOf (modRM m a b) = m := by revert m a b; decide
@[simp] theorem regOf_modRM (m : BitVec 2) (a b : BitVec 3) : regOf (modRM m a b) = a := by revert m a b; decide
@[simp] theorem rmOf_modRM (m : BitVec 2) (a b : BitVec 3) : rmOf (modRM m a b) = b := by revert m a b; decide

/-- A ModRM byte is its three fields and nothing else. -/
theorem modRM_fields (m : Byte) : modRM (modOf m) (regOf m) (rmOf m) = m := by revert m; decide

/-- A byte whose fields are these. -/
theorem modRM_eq_of_fields {m : Byte} {x : BitVec 2} {y z : BitVec 3} (hx : modOf m = x) (hy : regOf m = y)
    (hz : rmOf m = z) : modRM x y z = m := by
  subst hx hy hz
  exact modRM_fields m

/-- The four bytes of an immediate decode to it. -/
@[simp] theorem decodeImm32_imm32Bytes (mk : Half → Instr) (v : Half) (rest : List Byte) :
    decodeImm32 mk (imm32Bytes v ++ rest) = .ok (mk v, rest) := by
  simp [imm32Bytes, decodeImm32, Machine.le32_byteOf]

/-- The bytes of an assembled immediate are the bytes it was assembled from. -/
theorem imm32Bytes_le32 (b0 b1 b2 b3 : Byte) : imm32Bytes (le32 b0 b1 b2 b3) = [b0, b1, b2, b3] := by
  simp only [imm32Bytes, List.cons.injEq, and_true]
  refine ⟨?_, ?_, ?_, ?_⟩
  all_goals
    apply BitVec.eq_of_getLsbD_eq
    intro i hi
    simp only [le32, byteOf, BitVec.getLsbD_append, BitVec.getLsbD_extractLsb', hi, decide_true, Bool.true_and]
  · rw [if_pos (by omega)]
    congr 1; omega
  · rw [if_neg (by omega), if_pos (by omega)]
    congr 1; omega
  · rw [if_neg (by omega), if_neg (by omega), if_pos (by omega)]
    congr 1; omega
  · rw [if_neg (by omega), if_neg (by omega), if_neg (by omega)]
    congr 1; omega

/-- What an immediate decoder answers: the instruction of the immediate whose bytes stand in front. -/
theorem decodeImm32_ok {mk : Half → Instr} {bs rest : List Byte} {i : Instr} (h : decodeImm32 mk bs = .ok (i, rest)) :
    ∃ v, i = mk v ∧ bs = imm32Bytes v ++ rest := by
  unfold decodeImm32 at h
  split at h
  · cases h; exact ⟨_, rfl, by rw [imm32Bytes_le32]; rfl⟩
  · cases h

/-- What a one-byte operand decoder answers. -/
theorem decodeRel8_ok {mk : Byte → Instr} {bs rest : List Byte} {i : Instr} (h : decodeRel8 mk bs = .ok (i, rest)) :
    ∃ v, i = mk v ∧ bs = v :: rest := by
  unfold decodeRel8 at h
  split at h
  · cases h; exact ⟨_, rfl, rfl⟩
  · cases h

/-- The masked count is the count modulo 32 (42_helper_instructions.md R92). -/
theorem shiftsByCount_iff (imm : Byte) : shiftsByCount imm = true ↔ imm.toNat % 32 ≠ 0 := by revert imm; decide

/-- What the decoder of a shift count answers: a SHR whose masked count is not 0. -/
theorem decodeCount_ok {rm : Reg} {bs rest : List Byte} {i : Instr} (h : decodeCount rm bs = .ok (i, rest)) :
    ∃ imm, shiftsByCount imm = true ∧ i = .shrImm rm imm ∧ bs = imm :: rest := by
  unfold decodeCount at h
  split at h
  · split at h
    · next c => cases h; exact ⟨_, c, rfl, rfl⟩
    · cases h
  · cases h

end Sys2Proof
end

