-- ==== Sys2Proof/Laws/State.lean ====
section
/-! SUPPORT. One lemma per field per update, so that no proof unfolds a record update; and reset, field by field. -/

namespace Sys2Proof.Machine

section RegisterWrite
variable (s : State) (r : Reg) (v : Half)

@[simp] theorem writeReg32_launch : (writeReg32 s r v).launch = s.launch := rfl
@[simp] theorem writeReg32_rip : (writeReg32 s r v).rip = s.rip := rfl
@[simp] theorem writeReg32_flags : (writeReg32 s r v).flags = s.flags := rfl
@[simp] theorem writeReg32_mem : (writeReg32 s r v).mem = s.mem := rfl
@[simp] theorem writeReg32_vec : (writeReg32 s r v).vec = s.vec := rfl
@[simp] theorem writeReg32_opmask : (writeReg32 s r v).opmask = s.opmask := rfl
@[simp] theorem writeReg32_draws : (writeReg32 s r v).draws = s.draws := rfl

/-- A 32-bit register write, read back at any register number. -/
theorem writeReg32_get (n : Fin 16) :
    (writeReg32 s r v).x.get n = if n = r.index then v.setWidth 64 else s.x.get n := by
  have e : r.index.val = n.val ↔ n = r.index := ⟨fun h => Fin.ext h.symm, fun h => congrArg Fin.val h.symm⟩
  simp only [writeReg32, Vector.get_eq_getElem, Vector.getElem_set, e]

@[simp] theorem writeReg32_get_same : (writeReg32 s r v).x.get r.index = v.setWidth 64 := by
  rw [writeReg32_get, if_pos rfl]

theorem writeReg32_get_other {n : Fin 16} (h : n ≠ r.index) : (writeReg32 s r v).x.get n = s.x.get n := by
  rw [writeReg32_get, if_neg h]

end RegisterWrite

section FlagWrite
variable (s : State) (f : Flags)

@[simp] theorem setFlags_launch : (setFlags s f).launch = s.launch := rfl
@[simp] theorem setFlags_x : (setFlags s f).x = s.x := rfl
@[simp] theorem setFlags_rip : (setFlags s f).rip = s.rip := rfl
@[simp] theorem setFlags_flags : (setFlags s f).flags = f := rfl
@[simp] theorem setFlags_mem : (setFlags s f).mem = s.mem := rfl
@[simp] theorem setFlags_vec : (setFlags s f).vec = s.vec := rfl
@[simp] theorem setFlags_opmask : (setFlags s f).opmask = s.opmask := rfl
@[simp] theorem setFlags_draws : (setFlags s f).draws = s.draws := rfl

end FlagWrite

section DrawCount
variable (s : State) (n : Nat)

@[simp] theorem countDraws_launch : (countDraws s n).launch = s.launch := rfl
@[simp] theorem countDraws_x : (countDraws s n).x = s.x := rfl
@[simp] theorem countDraws_rip : (countDraws s n).rip = s.rip := rfl
@[simp] theorem countDraws_flags : (countDraws s n).flags = s.flags := rfl
@[simp] theorem countDraws_mem : (countDraws s n).mem = s.mem := rfl
@[simp] theorem countDraws_vec : (countDraws s n).vec = s.vec := rfl
@[simp] theorem countDraws_opmask : (countDraws s n).opmask = s.opmask := rfl
@[simp] theorem countDraws_draws : (countDraws s n).draws = s.draws + n := rfl

end DrawCount

section Store
variable (s : State) (a : Word) (v : Half)

@[simp] theorem store32_launch : (store32 s a v).launch = s.launch := rfl
@[simp] theorem store32_x : (store32 s a v).x = s.x := rfl
@[simp] theorem store32_rip : (store32 s a v).rip = s.rip := rfl
@[simp] theorem store32_flags : (store32 s a v).flags = s.flags := rfl
@[simp] theorem store32_mem : (store32 s a v).mem = write32 s.mem a.toNat v := rfl
@[simp] theorem store32_vec : (store32 s a v).vec = s.vec := rfl
@[simp] theorem store32_opmask : (store32 s a v).opmask = s.opmask := rfl
@[simp] theorem store32_draws : (store32 s a v).draws = s.draws := rfl

end Store

@[simp] theorem reset_rip : State.reset.rip = State.reset.launch.base := rfl
@[simp] theorem reset_text : State.reset.launch.text = [] := rfl
@[simp] theorem reset_mem : State.reset.mem = [] := rfl

end Sys2Proof.Machine
end

