-- ==== Sys2Proof/Laws/Ops.lean ====
section
/-! SUPPORT. What the shared operations can do, said once: the program counter, fetch and the end of a step. -/

namespace Sys2Proof.Machine

/-- If `goTo` answers a next state, only `rip` changed, and the target was a 64-bit address. -/
theorem goTo_next {s t : State} {n : Int} (h : goTo s n = .next t) :
    (0 ≤ n ∧ n.toNat < 2 ^ 64) ∧ t = { s with rip := BitVec.ofInt 64 n } := by
  unfold goTo at h
  split at h
  · next c => exact ⟨c, (Host.Outcome.next.inj h).symm⟩
  · cases h

/-- `goTo` answers no fault. -/
theorem goTo_fault {s : State} {n : Int} {r : Fault} : goTo s n ≠ .fault r := by
  unfold goTo; split <;> simp

/-- `goTo` refuses only a target that is no 64-bit address, and records it. -/
theorem goTo_refused {s : State} {n : Int} {r : Refusal} (h : goTo s n = .refused r) :
    ¬(0 ≤ n ∧ n.toNat < 2 ^ 64) ∧ r = .notAdmittedTarget n := by
  unfold goTo at h
  split at h
  · cases h
  · next c => exact ⟨c, (Host.Outcome.refused.inj h).symm⟩

/-- A target within the address space is reached. -/
theorem goTo_of_range (s : State) {n : Int} (h0 : 0 ≤ n) (h1 : n.toNat < 2 ^ 64) :
    goTo s n = .next { s with rip := BitVec.ofInt 64 n } := if_pos ⟨h0, h1⟩

/-- `rip + length` below `2^64`: the instruction ends at the next one. -/
theorem advance_of_range (s : State) {len : Nat} (h : s.rip.toNat + len < 2 ^ 64) :
    advance s len = .next { s with rip := s.rip + BitVec.ofNat 64 len } := by
  unfold advance
  rw [goTo_of_range s (by omega) (by omega)]
  congr 2
  rw [show ((s.rip.toNat : Int) + (len : Int)) = ((s.rip.toNat + len : Nat) : Int) by push_cast; rfl]
  rw [BitVec.ofInt_natCast, BitVec.ofNat_add, BitVec.ofNat_toNat, BitVec.setWidth_eq]

theorem advance_next {s t : State} {len : Nat} (h : advance s len = .next t) :
    t = { s with rip := BitVec.ofInt 64 (s.rip.toNat + len) } := (goTo_next h).2

/-- A branch, taken or not, changes `rip` alone. -/
theorem branch_next {s t : State} {rel : Byte} {taken : Bool} (h : branch s rel taken = .next t) :
    ∃ p, t = { s with rip := p } := by
  unfold branch at h
  split at h
  · exact ⟨_, (goTo_next h).2⟩
  · exact ⟨_, advance_next h⟩

/-- The text from an address: the address is in the text, and the bytes are what stands from there. -/
theorem textFrom_eq_some {l : Launch} {a : Nat} {bs : List Byte} :
    l.textFrom a = some bs ↔ l.inText a = true ∧ bs = l.text.drop (a - l.base.toNat) := by
  unfold Launch.textFrom
  split
  · next h => simp [h, eq_comm]
  · next h => simp [h]

/-- Where there is text at `rip`, the run has not ended. -/
theorem not_atEnd_of_textFrom {s : State} {bs : List Byte} (h : s.launch.textFrom s.rip.toNat = some bs) :
    s.atEnd = false := by
  have := (textFrom_eq_some.mp h).1
  simp only [Launch.inText, Bool.and_eq_true, decide_eq_true_eq] at this
  simp only [State.atEnd, beq_eq_false_iff_ne]
  omega

/-- What is rejected for another reason than a shift count is refused as `NotAdmitted(bytes)` (60_exceptions.md R99). -/
theorem fetchRefusal_of_not_count {bs : List Byte} {rip : Word} {why : Reject} (h : ∀ imm, why ≠ .count imm) :
    fetchRefusal bs rip why = .notAdmittedBytes (bs.take maxInstrLength) rip why := by
  cases why with
  | count imm => exact absurd rfl (h imm)
  | _ => rfl

/-- An instruction is fetched where the text at `rip` decodes to it. -/
theorem fetchInstr_ok {s : State} {i : Instr} :
    fetchInstr s = .ok i ↔ ∃ bs rest, s.launch.textFrom s.rip.toNat = some bs ∧ decode bs = .ok (i, rest) := by
  unfold fetchInstr
  split
  · next h => simp [h]
  · next bs h =>
    split
    · next j rest e => simp [h, e]
    · next why e => simp [h, e]

/-- What ends a step with a next state: the instruction's own, at END or at an admitted instruction. -/
theorem admitNext_next {o : Result} {t : State} (h : admitNext o = .next t) :
    o = .next t ∧ (t.atEnd = true ∨ ∃ i, fetchInstr t = .ok i) := by
  unfold admitNext at h
  split at h
  · next u =>
    split at h
    · next e => cases h; exact ⟨rfl, .inl e⟩
    · split at h
      · next i e => cases h; exact ⟨rfl, .inr ⟨i, e⟩⟩
      · cases h
  · cases h
  · cases h

/-- What a step with a next state is: an instruction fetched and run, and the next fetch admitted. -/
theorem step_next {s t : State} (h : step s = .next t) :
    s.atEnd = false ∧ (∃ i, fetchInstr s = .ok i ∧ exec i s = .next t) ∧
      (t.atEnd = true ∨ ∃ i, fetchInstr t = .ok i) := by
  unfold step at h
  split at h
  · cases h
  · next e =>
    split at h
    · cases h
    · next i f =>
      obtain ⟨hx, hn⟩ := admitNext_next h
      exact ⟨by simpa using e, ⟨i, f, hx⟩, hn⟩

end Sys2Proof.Machine
end

