-- ==== Sys2Proof/Laws/Exec.lean ====
section
/-! SUPPORT. What an instruction can do, said once: its effect but for the program counter, and that a next state is that
effect with another `rip`. -/

namespace Sys2Proof.Machine

/-- What an instruction does to the state but for the program counter, where it is not refused. -/
def effect : Instr → State → State
  | .cpuid, s => cpuidEffect Config.draw s
  | .movRegImm rd imm, s => writeReg32 s rd imm
  | .movRegReg rm reg, s => writeReg32 s rm (readReg32 s reg)
  | .movStore rm reg, s => store32 s (readReg64 s rm) (readReg32 s reg)
  | .movLoad reg rm, s => writeReg32 s reg (read32 s.mem (readReg64 s rm).toNat)
  | .movzx reg rm, s => writeReg32 s reg ((readReg8 s rm).setWidth 32)
  | .andImm rm imm, s => setLogicFlags (writeReg32 s rm (readReg32 s rm &&& imm)) (readReg32 s rm &&& imm)
  | .cmpImm rm imm, s => setFlags s (cmpFlags (readReg32 s rm) imm)
  | .testImm rm imm, s => setLogicFlags s (readReg32 s rm &&& imm)
  | .shrImm rm imm, s =>
    countDraws (setFlags (writeReg32 s rm (readReg32 s rm >>> shiftCount imm))
      (shrFlags (readReg32 s rm) (shiftCount imm) (drawBit s.draws) (drawBit (s.draws + 1)))) 2
  | .xorReg rm reg, s =>
    setLogicFlags (writeReg32 s rm (readReg32 s rm ^^^ readReg32 s reg)) (readReg32 s rm ^^^ readReg32 s reg)
  | .jz _, s => s
  | .jnz _, s => s
  | .jb _, s => s
  | .jae _, s => s
  | .jmp _, s => s

/-- An instruction that gives a next state gives its effect, with some `rip`. -/
theorem exec_next {i : Instr} {s t : State} (h : exec i s = .next t) : ∃ p, t = { effect i s with rip := p } := by
  cases i with
  | cpuid => exact ⟨_, advance_next h⟩
  | movRegImm => exact ⟨_, advance_next h⟩
  | movRegReg => exact ⟨_, advance_next h⟩
  | movStore =>
    simp only [exec, execMovStore] at h
    split at h
    · exact ⟨_, advance_next h⟩
    · cases h
  | movLoad =>
    simp only [exec, execMovLoad] at h
    split at h
    · exact ⟨_, advance_next h⟩
    · cases h
  | movzx => exact ⟨_, advance_next h⟩
  | andImm => exact ⟨_, advance_next h⟩
  | cmpImm => exact ⟨_, advance_next h⟩
  | testImm => exact ⟨_, advance_next h⟩
  | shrImm =>
    simp only [exec, execShrImm] at h
    split at h
    · cases h
    · exact ⟨_, advance_next h⟩
  | xorReg => exact ⟨_, advance_next h⟩
  | jz => exact branch_next h
  | jnz => exact branch_next h
  | jb => exact branch_next h
  | jae => exact branch_next h
  | jmp => exact branch_next (taken := true) h

/-- A store that gives a next state was admitted (20_memory.md R32). -/
theorem execMovStore_admitted {rm reg : Reg} {s t : State} (h : exec (.movStore rm reg) s = .next t) :
    s.launch.admitted (readReg64 s rm) = true := by
  simp only [exec, execMovStore] at h
  split at h
  · assumption
  · cases h

section LogicFlags
variable (s : State) (r : Half)

@[simp] theorem setLogicFlags_launch : (setLogicFlags s r).launch = s.launch := rfl
@[simp] theorem setLogicFlags_x : (setLogicFlags s r).x = s.x := rfl
@[simp] theorem setLogicFlags_rip : (setLogicFlags s r).rip = s.rip := rfl
@[simp] theorem setLogicFlags_flags : (setLogicFlags s r).flags = logicFlags r (drawBit s.draws) := rfl
@[simp] theorem setLogicFlags_mem : (setLogicFlags s r).mem = s.mem := rfl
@[simp] theorem setLogicFlags_vec : (setLogicFlags s r).vec = s.vec := rfl
@[simp] theorem setLogicFlags_opmask : (setLogicFlags s r).opmask = s.opmask := rfl

end LogicFlags

section Cpuid
variable (draw : (w : Nat) → Nat → BitVec w) (s : State)

@[simp] theorem cpuidEffect_launch : (cpuidEffect draw s).launch = s.launch := rfl
@[simp] theorem cpuidEffect_rip : (cpuidEffect draw s).rip = s.rip := rfl
@[simp] theorem cpuidEffect_flags : (cpuidEffect draw s).flags = s.flags := rfl
@[simp] theorem cpuidEffect_mem : (cpuidEffect draw s).mem = s.mem := rfl
@[simp] theorem cpuidEffect_vec : (cpuidEffect draw s).vec = s.vec := rfl
@[simp] theorem cpuidEffect_opmask : (cpuidEffect draw s).opmask = s.opmask := rfl

/-- Where CPUID puts the four values of an answer, and that every other register is as before
(40_cpuid_enumeration.md R43). -/
theorem writeAnswer_get (a : CpuidAnswer) (n : Fin 16) :
    (writeAnswer s a).x.get n =
      if n = 0 then a.eax.setWidth 64 else if n = 1 then a.ecx.setWidth 64
      else if n = 2 then a.edx.setWidth 64 else if n = 3 then a.ebx.setWidth 64 else s.x.get n := by
  have e0 : Reg.index .eax = 0 := rfl
  have e1 : Reg.index .ecx = 1 := rfl
  have e2 : Reg.index .edx = 2 := rfl
  have e3 : Reg.index .ebx = 3 := rfl
  simp only [writeAnswer, writeReg32_get, e0, e1, e2, e3]
  split_ifs <;> first | rfl | (subst_vars; contradiction)

end Cpuid

end Sys2Proof.Machine
end

