-- ==== Sys2Proof/Laws/Cpuid.lean ====
section
/-! SUPPORT. The fields of the CPUID answers at their bits, and the registers after a query. -/

namespace Sys2Proof.Machine

/-- Bit 19 of `CPUID.(07H,01H):EDX` (40_cpuid_enumeration.md R44). -/
theorem featureEdx_bit19 (c : Cfg) (hi : BitVec 12) (lo : BitVec 19) :
    (featureEdx c hi lo).getLsbD 19 = c.avx10Supported := by
  simp only [featureEdx, BitVec.getLsbD_append]
  simp

section Ebx
variable (c : Cfg) (hi : BitVec 13) (lo : BitVec 8)

/-- Bits 7:0 of `CPUID.(24H,00H):EBX` (40_cpuid_enumeration.md R47). -/
theorem leaf24Ebx_version : (leaf24Ebx c hi lo).extractLsb' 0 8 = c.avx10Version := by
  apply BitVec.eq_of_getLsbD_eq
  intro i h
  simp only [leaf24Ebx, BitVec.getLsbD_extractLsb', BitVec.getLsbD_append]
  simp [h]

/-- Bit 16 (40_cpuid_enumeration.md R49). -/
theorem leaf24Ebx_bit16 : (leaf24Ebx c hi lo).getLsbD 16 = c.vl128 := by
  simp only [leaf24Ebx, BitVec.getLsbD_append]
  simp

/-- Bit 17 (40_cpuid_enumeration.md R50). -/
theorem leaf24Ebx_bit17 : (leaf24Ebx c hi lo).getLsbD 17 = c.vl256 := by
  simp only [leaf24Ebx, BitVec.getLsbD_append]
  simp

/-- Bit 18 (40_cpuid_enumeration.md R51). -/
theorem leaf24Ebx_bit18 : (leaf24Ebx c hi lo).getLsbD 18 = c.vl512 := by
  simp only [leaf24Ebx, BitVec.getLsbD_append]
  simp

/-- EBX masked to its defined fields holds them and nothing of the reserved ones (30_encoding.md R36). -/
theorem leaf24Ebx_masked : leaf24Ebx c hi lo &&& 0x000700FF = leaf24Ebx c 0 0 := by
  apply BitVec.eq_of_getLsbD_eq
  intro i h
  simp only [leaf24Ebx, BitVec.getLsbD_and, BitVec.getLsbD_append]
  interval_cases i <;> simp

end Ebx

/-- The low half of a register just written. -/
@[simp] theorem readReg32_writeReg32_same (s : State) (r : Reg) (v : Half) :
    readReg32 (writeReg32 s r v) r = v := by
  simp [readReg32, readReg64]

/-- The low half of another register. -/
theorem readReg32_writeReg32_other (s : State) {r q : Reg} (v : Half) (h : q ≠ r) :
    readReg32 (writeReg32 s r v) q = readReg32 s q := by
  have : q.index ≠ r.index := fun e => h (Reg.index_injective e)
  simp [readReg32, readReg64, writeReg32_get_other s r v this]

/-- EDX and EBX after CPUID executed for a leaf and sub-leaf (41_avx10_versioning.md R80). -/
theorem readReg32_queryCpuid (draw : (w : Nat) → Nat → BitVec w) (s : State) (leaf sub : Half) :
    readReg32 (queryCpuid draw s leaf sub) .edx = (cpuidTable draw s.launch.cfg leaf sub s.draws).edx ∧
      readReg32 (queryCpuid draw s leaf sub) .ebx = (cpuidTable draw s.launch.cfg leaf sub s.draws).ebx := by
  have hs : readReg32 (writeReg32 (writeReg32 s .eax leaf) .ecx sub) .eax = leaf := by
    rw [readReg32_writeReg32_other _ _ (by decide), readReg32_writeReg32_same]
  have hget : ∀ (a : CpuidAnswer) (t : State), readReg32 (countDraws (writeAnswer t a) cpuidDraws) .edx = a.edx ∧
      readReg32 (countDraws (writeAnswer t a) cpuidDraws) .ebx = a.ebx := by
    intro a t
    constructor <;> simp [readReg32, readReg64, writeAnswer_get, Reg.index]
  have := hget (cpuidTable draw s.launch.cfg leaf sub s.draws) (writeReg32 (writeReg32 s .eax leaf) .ecx sub)
  simpa [queryCpuid, cpuidEffect, hs] using this

/-- A query changes no launch parameter. -/
@[simp] theorem queryCpuid_launch (draw : (w : Nat) → Nat → BitVec w) (s : State) (leaf sub : Half) :
    (queryCpuid draw s leaf sub).launch = s.launch := rfl

end Sys2Proof.Machine
end

