-- ==== Sys2Proof/Laws/PerInstr.lean ====
section
/-! SUPPORT. The families of statements made per instruction (LAWS.json). -/

namespace Sys2Proof.Laws.EncodedLength

/-- The encoding has as many bytes as the table's `length` says (30_encoding.md R33). -/
def Statement (i : Instr) : Prop := (encode i).length = instrLength i ∧ instrLength i = (opcodeRow i).length

theorem cpuid : Statement .cpuid := ⟨rfl, rfl⟩
theorem movRegImm (rd : Reg) (imm : Half) : Statement (.movRegImm rd imm) := ⟨rfl, rfl⟩
theorem movRegReg (rm reg : Reg) : Statement (.movRegReg rm reg) := ⟨rfl, rfl⟩
theorem movStore (rm reg : Reg) : Statement (.movStore rm reg) := ⟨rfl, rfl⟩
theorem movLoad (reg rm : Reg) : Statement (.movLoad reg rm) := ⟨rfl, rfl⟩
theorem movzx (reg rm : Reg) : Statement (.movzx reg rm) := ⟨rfl, rfl⟩
theorem andImm (rm : Reg) (imm : Half) : Statement (.andImm rm imm) := ⟨rfl, rfl⟩
theorem cmpImm (rm : Reg) (imm : Half) : Statement (.cmpImm rm imm) := ⟨rfl, rfl⟩
theorem testImm (rm : Reg) (imm : Half) : Statement (.testImm rm imm) := ⟨rfl, rfl⟩
theorem shrImm (rm : Reg) (imm : Byte) : Statement (.shrImm rm imm) := ⟨rfl, rfl⟩
theorem xorReg (rm reg : Reg) : Statement (.xorReg rm reg) := ⟨rfl, rfl⟩
theorem jz (rel : Byte) : Statement (.jz rel) := ⟨rfl, rfl⟩
theorem jnz (rel : Byte) : Statement (.jnz rel) := ⟨rfl, rfl⟩
theorem jb (rel : Byte) : Statement (.jb rel) := ⟨rfl, rfl⟩
theorem jae (rel : Byte) : Statement (.jae rel) := ⟨rfl, rfl⟩
theorem jmp (rel : Byte) : Statement (.jmp rel) := ⟨rfl, rfl⟩

end Sys2Proof.Laws.EncodedLength
end

