-- ==== Sys2Proof/Laws/Predicates.lean ====
section
/-! SUPPORT. The Boolean checks of the model as propositions, one lemma each, so that proofs do not unfold them. -/

namespace Sys2Proof.Machine

theorem Launch.ok_iff (l : Launch) : l.ok = true ↔ l.base.toNat + l.text.length < 2 ^ 64 := decide_eq_true_iff

theorem Launch.inText_iff (l : Launch) (a : Nat) :
    l.inText a = true ↔ l.base.toNat ≤ a ∧ a < l.base.toNat + l.text.length := by
  rw [Launch.inText, Bool.and_eq_true, decide_eq_true_iff, decide_eq_true_iff, Launch.endAddr]

theorem Launch.inData_iff (l : Launch) (a : Nat) :
    l.inData a = true ↔ (∃ r ∈ l.data, r.base ≤ a ∧ a < r.base + r.size) ∧ ¬l.inText a = true := by
  simp only [Launch.inData, Bool.and_eq_true, List.any_eq_true, decide_eq_true_iff, Bool.not_eq_true',
    Bool.not_eq_true]

theorem State.atEnd_iff (s : State) :
    s.atEnd = true ↔ s.rip.toNat = s.launch.base.toNat + s.launch.text.length := beq_iff_eq

theorem State.ripOk_iff (s : State) : s.ripOk = true ↔ s.atEnd = true ∨ ∃ i, fetchInstr s = .ok i := by
  rw [State.ripOk, Bool.or_eq_true]
  split
  · next i h => simp [h]
  · next r h => simp [h]

theorem inFeatures_iff (N : Nat) (f : Feature) : inFeatures N f = true ↔ introducedIn f ≤ N := decide_eq_true_iff

theorem supportsLength_iff (c : Cfg) (L : VecLen) : supportsLength c L = true ↔ L.bits ≤ maxVL c := decide_eq_true_iff

/-- PF counts the ones of the low byte (42_helper_instructions.md R81). -/
theorem evenParity_iff (r : Half) : evenParity r = true ↔ lowByteOnes r % 2 = 0 := beq_iff_eq

/-- The ModRM byte of two registers, as a number and as its fields (30_encoding.md R38). -/
theorem modRMByte_registers {mod : Nat} (h : mod < 4) (reg rm : Reg) :
    modRMByte mod reg.index rm.index = modRM (BitVec.ofNat 2 mod) reg.bits rm.bits := by
  revert mod; cases reg <;> cases rm <;> decide

/-- The ModRM byte of an opcode extension and a register. -/
theorem modRMByte_extension {mod ext : Nat} (h : mod < 4) (h' : ext < 8) (rm : Reg) :
    modRMByte mod ext rm.index = modRM (BitVec.ofNat 2 mod) (BitVec.ofNat 3 ext) rm.bits := by
  have all : ∀ m < 4, ∀ e < 8, ∀ r : Fin 8, modRMByte m e r = modRM (BitVec.ofNat 2 m) (BitVec.ofNat 3 e)
      (BitVec.ofNat 3 r) := by decide
  rw [Reg.bits_eq_index]
  exact all mod h ext h' ⟨rm.index, rm.index_lt⟩

end Sys2Proof.Machine
end

