-- ==== Sys2Proof/Tests/Slice0.lean ====
section
/-! SUPPORT. Tests: ill-formed terms refused, every constructor's bytes decoded, single steps of 95_test_vectors.md, and for
every statement with hypotheses a state that meets them. -/

namespace Sys2Proof.Tests

open Sys2Proof Sys2Proof.Machine

/-! ### Helpers -/

/-- A machine launched under a configuration with a program at 1000H and the bytes 2000H to 2FFFH as data. -/
def launched (c : Cfg) (text : List Byte) : State :=
  { State.reset with
    launch := { cfg := c, base := 0x1000, text := text, data := [⟨0x2000, 0x1000⟩] }
    rip := 0x1000 }

/-- The same with no program text given: for tests of one instruction's meaning. -/
def plain : State := launched (referenceCfg 2 true) []

/-- With a register set, all 64 bits. -/
def withReg (s : State) (n : Fin 16) (v : Word) : State := { s with x := s.x.set n v n.isLt }

/-- With these CF and ZF. -/
def withCZ (s : State) (cf zf : Bool) : State := { s with flags := { s.flags with CF := cf, ZF := zf } }

/-- A property of the next state, false where there is none. -/
def nextIs (o : Host.Outcome State Fault Refusal) (p : State → Bool) : Bool :=
  match o with
  | .next t => p t
  | .fault _ => false
  | .refused _ => false

/-- A property of the refusal, false where there is none. -/
def refusedIs (o : Host.Outcome State Fault Refusal) (r : Refusal) : Bool :=
  match o with
  | .next _ => false
  | .fault _ => false
  | .refused q => q == r

/-- There is a next state. -/
def completes (o : Host.Outcome State Fault Refusal) : Bool := nextIs o fun _ => true

/-- A source of free values, all ones. -/
def ones : (w : Nat) → Nat → BitVec w := fun w _ => BitVec.allOnes w

/-- CF, ZF, SF, OF, PF. -/
def fiveFlags (f : Flags) : Bool × Bool × Bool × Bool × Bool := (f.CF, f.ZF, f.SF, f.OF, f.PF)

/-! ### Well-formedness: one ill-formed term for each check (30_encoding.md R38) -/

theorem test_store_address_esp_illformed : (Instr.movStore .esp .eax).wellFormed = false := by decide
theorem test_store_address_ebp_illformed : (Instr.movStore .ebp .eax).wellFormed = false := by decide
theorem test_load_address_illformed : (Instr.movLoad .eax .ebp).wellFormed = false := by decide
theorem test_movzx_source_illformed : (Instr.movzx .eax .esp).wellFormed = false := by decide
theorem test_shr_count_illformed : (Instr.shrImm .eax 0x20).wellFormed = false := by decide

/-! ### Decoding: bytes written out from 30_encoding.md R33 and 95_test_vectors.md V6, V7, one for each constructor -/

theorem test_decode_cpuid : decode [0x0F, 0xA2] = .ok (.cpuid, []) := by decide
theorem test_decode_mov_imm : decode [0xBF, 0x00, 0x00, 0x00, 0x80] = .ok (.movRegImm .edi 0x80000000, []) := by decide
theorem test_decode_mov_reg : decode [0x89, 0xD0] = .ok (.movRegReg .eax .edx, []) := by decide
theorem test_decode_store : decode [0x89, 0x1F] = .ok (.movStore .edi .ebx, []) := by decide
theorem test_decode_load : decode [0x8B, 0x17] = .ok (.movLoad .edx .edi, []) := by decide
theorem test_decode_movzx : decode [0x0F, 0xB6, 0xC3] = .ok (.movzx .eax .ebx, []) := by decide
theorem test_decode_and : decode [0x81, 0xE3, 0xFF, 0x00, 0x07, 0x00] = .ok (.andImm .ebx 0x000700FF, []) := by decide
theorem test_decode_cmp : decode [0x81, 0xF8, 0x02, 0x00, 0x00, 0x00] = .ok (.cmpImm .eax 2, []) := by decide
theorem test_decode_test : decode [0xF7, 0xC2, 0x00, 0x00, 0x08, 0x00] = .ok (.testImm .edx 0x00080000, []) := by decide
theorem test_decode_shr : decode [0xC1, 0xE8, 0x13] = .ok (.shrImm .eax 19, []) := by decide
theorem test_decode_xor : decode [0x31, 0xD8] = .ok (.xorReg .eax .ebx, []) := by decide
theorem test_decode_jz : decode [0x74, 0x1B] = .ok (.jz 0x1B, []) := by decide
theorem test_decode_jnz : decode [0x75, 0x1C] = .ok (.jnz 0x1C, []) := by decide
theorem test_decode_jb : decode [0x72, 0x07] = .ok (.jb 0x07, []) := by decide
theorem test_decode_jae : decode [0x73, 0x02] = .ok (.jae 0x02, []) := by decide
theorem test_decode_jmp : decode [0xEB, 0xF9] = .ok (.jmp 0xF9, []) := by decide

/-- 95_test_vectors.md V7, rows 2 to 16: each is refused. -/
theorem test_decode_refusals :
    ([[0xF0, 0x0F, 0xA2], [0x48, 0x89, 0xD8], [0x66, 0xB8, 0x24, 0x00], [0x90], [0xC3], [0x0F, 0x0B], [0x89, 0x04, 0x24],
      [0x89, 0x05, 0x00, 0x00, 0x00, 0x00], [0x89, 0x47, 0x04], [0x8B, 0xC3], [0x0F, 0xB6, 0xC4], [0xC1, 0xE0, 0x13],
      [0xF7, 0xD0], [0x81, 0xC0, 0x01, 0x00, 0x00, 0x00], [0x0F]] : List (List Byte)).all
      (fun bs => match decode bs with
        | .ok _ => false
        | .error _ => true) = true := by decide

/-- Bit 0 of the number is the least significant bit of byte 0. -/
theorem test_table_word_mov : decodeTableWord 40 0x24B9 = some (.movRegImm .ecx 0x24) := by decide

/-! ### One step each (95_test_vectors.md V1, V6) -/

/-- V1 row 12: only the low halves of RAX and RCX are the query. -/
theorem test_cpuid_leaf24 :
    nextIs (exec .cpuid (withReg (withReg plain 0 0xFFFFFFFF00000024) 1 0xABCDEF0100000000))
      (fun t => t.x.get 0 == 0 && t.rip == 0x1002) = true := by decide

/-- V1 row 3 and 40_cpuid_enumeration.md R52: with every reserved bit set, the defined fields read the same. -/
theorem test_cpuid_masked_ebx :
    (cpuidTable ones (referenceCfg 2 true) 0x24 0 0).ebx &&& 0x000700FF = 0x00070002 := by decide

/-- V1 row 8: sub-leaf 100H is not sub-leaf 0. -/
theorem test_cpuid_subleaf_is_32_bits : (cpuidTable ones (referenceCfg 2 true) 0x24 0x100 0).ebx = 0xFFFFFFFF := by decide

/-- V6 row 2. -/
theorem test_mov_imm : nextIs (exec (.movRegImm .edi 0x80000000) plain) (fun t => t.x.get 7 == 0x80000000) = true := by decide

/-- V6 row 3. -/
theorem test_mov_reg :
    nextIs (exec (.movRegReg .eax .edx) (withReg plain 2 0xFFFFFFFF00080000)) (fun t => t.x.get 0 == 0x80000) = true := by
  decide

/-- V6 row 6: a misaligned store of the low half of the address itself. -/
theorem test_store :
    nextIs (exec (.movStore .edi .edi) (withReg plain 7 0x2001))
      (fun t => t.mem == [(0x2001, 0x01), (0x2002, 0x20)] && read32 t.mem 0x2001 == 0x2001) = true := by decide

/-- V6 row 7: the last byte is not in DATA. -/
theorem test_store_refused :
    refusedIs (exec (.movStore .edi .eax) (withReg plain 7 0x2FFD)) (.notAdmittedAccess 0x2FFD) = true := by decide

/-- V6 row 8. -/
theorem test_load :
    nextIs (exec (.movLoad .eax .edi)
        { withReg plain 7 0x2100 with mem := [(0x2100, 0xEF), (0x2101, 0xBE), (0x2102, 0xAD), (0x2103, 0xDE)] })
      (fun t => t.x.get 0 == 0xDEADBEEF) = true := by decide

/-- V6 row 11. -/
theorem test_movzx :
    nextIs (exec (.movzx .eax .eax) (withReg plain 0 0xFFFFFFFFFFFFFF80)) (fun t => t.x.get 0 == 0x80) = true := by decide

/-- V6 row 12. -/
theorem test_and :
    nextIs (exec (.andImm .ebx 0x000700FF) (withReg plain 3 0xFFFBAB02))
      (fun t => t.x.get 3 == 0x00030002 && fiveFlags t.flags == (false, false, false, false, false)) = true := by decide

/-- V6 row 15: CF, ZF, SF, OF, PF, AF. -/
theorem test_cmp_borrow :
    nextIs (exec (.cmpImm .eax 2) (withReg plain 0 1))
      (fun t => fiveFlags t.flags == (true, false, true, false, true) && t.flags.AF) = true := by decide

/-- V6 row 19. -/
theorem test_cmp_overflow :
    nextIs (exec (.cmpImm .eax 1) (withReg plain 0 0x80000000))
      (fun t => fiveFlags t.flags == (false, false, false, true, true) && t.flags.AF) = true := by decide

/-- V6 row 21. -/
theorem test_test :
    nextIs (exec (.testImm .edx 0x00080000) (withReg plain 2 0xFFF7FFFF))
      (fun t => t.x.get 2 == 0xFFF7FFFF && fiveFlags t.flags == (false, true, false, false, true)) = true := by decide

/-- V6 row 24. -/
theorem test_shr_by_one :
    nextIs (exec (.shrImm .eax 1) (withReg plain 0 0xFFFFFFFF))
      (fun t => t.x.get 0 == 0x7FFFFFFF && fiveFlags t.flags == (true, false, false, true, true)) = true := by decide

/-- V6 rows 23 and 26: the count is taken modulo 32, and CF is bit 18 of the source. -/
theorem test_shr_masked_count :
    nextIs (exec (.shrImm .eax 0x33) (withReg plain 0 0x000C0000)) (fun t => t.x.get 0 == 1 && t.flags.CF) = true := by decide

/-- V6 row 27: the bytes select no row (30_encoding.md R33), and the refusal is NotAdmitted(count). -/
theorem test_shr_by_32 :
    (opcodeTable.all (fun r => !r.selects [0xC1, 0xE8, 0x20]) &&
      refusedIs (step (launched (referenceCfg 1 false) [0xC1, 0xE8, 0x20])) (.notAdmittedCount 0x20)) = true := by decide

/-- V6 row 28. -/
theorem test_xor :
    nextIs (exec (.xorReg .ecx .ecx) (withReg plain 1 0xDEADBEEF00000001))
      (fun t => t.x.get 1 == 0 && fiveFlags t.flags == (false, true, false, false, true)) = true := by decide

/-- V6 rows 30 and 31: from offset 12H. -/
theorem test_jz :
    (nextIs (exec (.jz 0x1B) { withCZ plain false true with rip := 0x1012 }) (fun t => t.rip == 0x102F) &&
      nextIs (exec (.jz 0x1B) { withCZ plain false false with rip := 0x1012 }) (fun t => t.rip == 0x1014)) = true := by decide

/-- V6 row 32. -/
theorem test_jnz : nextIs (exec (.jnz 0x1C) { plain with rip := 0x101E }) (fun t => t.rip == 0x103C) = true := by decide

/-- V6 row 33. -/
theorem test_jb :
    nextIs (exec (.jb 0x07) { withCZ plain true false with rip := 0x1026 }) (fun t => t.rip == 0x102F) = true := by decide

/-- V6 row 34. -/
theorem test_jae :
    nextIs (exec (.jae 0x02) { withCZ plain true false with rip := 0x1010 }) (fun t => t.rip == 0x1012) = true := by decide

/-- V6 row 36: backwards. -/
theorem test_jmp : nextIs (exec (.jmp 0xF9) { plain with rip := 0x1005 }) (fun t => t.rip == 0x1000) = true := by decide

/-- V6 row 37: a branch to itself is a step. -/
theorem test_jmp_to_itself :
    nextIs (step (launched (referenceCfg 1 false) [0xEB, 0xFE])) (fun t => t.rip == 0x1000) = true := by decide

/-! ### Configurations (95_test_vectors.md V2, V3, V5) -/

theorem test_name : (cfgName (referenceCfg 2 true)).map Avx10Name.text = some "Intel AVX10.2/512" := by decide
theorem test_wellformed_ecore : cfgWellFormed (referenceCfg 1 false) = true := by decide
theorem test_illformed_512_on_ecore : cfgWellFormed { referenceCfg 2 true with isPcore := false } = false := by decide
theorem test_illformed_without_avx2 : cfgWellFormed { referenceCfg 1 false with avx2Supported := false } = false := by decide
theorem test_illformed_version_zero : cfgWellFormed (referenceCfg 0 false) = false := by decide
theorem test_illformed_128_only : cfgWellFormed { referenceCfg 1 false with vl256 := false } = false := by decide
theorem test_illformed_not_downward_closed : cfgWellFormed { referenceCfg 1 false with vl128 := false } = false := by decide
theorem test_illformed_legacy_flag_on_ecore :
    cfgWellFormed { referenceCfg 1 false with avx512Flags := [.avx512f] } = false := by decide

/-- V3, row AVX10.2/256, with every reserved bit set. -/
theorem test_hasAvx10 :
    (hasAvx10 ones (launched (referenceCfg 2 false) []) 2 .v256, hasAvx10 ones (launched (referenceCfg 2 false) []) 2 .v512,
      hasAvx10 ones (launched (referenceCfg 2 false) []) 3 .v128, hasAvx10 ones (launched noAvx10Cfg []) 1 .v128)
      = (true, false, false, false) := by decide

/-! ### How the host places an instruction -/

theorem test_first_instruction_cpuid :
    nextIs (step (State.reset.withFetchWord 16 0xA20F)) (fun t => t.atEnd) = true := by decide
theorem test_first_instruction_store :
    nextIs (step (State.reset.withFetchWord 16 0x0089)) (fun t => t.rip == 0x400002) = true := by decide
theorem test_reset_has_no_program : step State.reset = .fault .runEnded := by rfl

/-! ### Witnesses: for every statement with hypotheses, a state and operands that meet them -/

theorem witness_DecodeOfEncodeIsTheInstruction :
    (Instr.movStore .edi .ebx).wellFormed = true ∧ (Instr.movzx .edi .ebx).wellFormed = true := by decide
theorem witness_DecodedBytesAreTheEncoding : decode [0xC1, 0xEF, 0x21, 0x90] = .ok (.shrImm .edi 0x21, [0x90]) := by decide
theorem witness_AtMostOneOpcodeRowMatches :
    opcodeRow (.jz 0) ∈ opcodeTable ∧ (opcodeRow (.jz 0)).selects [0x74, 0x1B] = true := by decide
theorem witness_DecoderAgreesWithOpcodeTable :
    decode [0x89, 0x1F] = .ok (.movStore .edi .ebx, []) ∧ opcodeRow (.movStore .edi .ebx) ∈ opcodeTable ∧
      (opcodeRow (.movStore .edi .ebx)).selects [0x89, 0x1F] = true := by decide
theorem witness_PrefixBytesAreRefused :
    isPrefix 0x66 ∧ isPrefix 0x67 ∧ isPrefix 0xF0 ∧ isPrefix 0xF2 ∧ isPrefix 0xF3 ∧
      (0x40 ≤ (0x40 : Byte).toNat ∧ (0x4F : Byte).toNat ≤ 0x4F) := by decide
/-- A byte below and one above each refused range. -/
theorem witness_PrefixBytesAreRefused_opcode :
    ([0x3F, 0x50, 0xB7, 0xC0, 0x00, 0xFF] : List Byte).all (fun b =>
      b ∉ ([0x0F, 0x89, 0x8B, 0x31, 0x81, 0xF7, 0xC1, 0x72, 0x73, 0x74, 0x75, 0xEB] : List Byte) &&
        !(0xB8 ≤ b.toNat && b.toNat ≤ 0xBF) && b ∉ ([0x66, 0x67, 0xF0, 0xF2, 0xF3] : List Byte) &&
        !(0x40 ≤ b.toNat && b.toNat ≤ 0x4F)) = true := by decide

/-- A store to address 0, which is not in DATA. -/
theorem witness_StepRunsTheDecodedInstruction_refused :
    (launched (referenceCfg 1 false) [0x89, 0x00]).launch.textFrom 0x1000 = some [0x89, 0x00] ∧
      decode [0x89, 0x00] = .ok (.movStore .eax .eax, []) ∧
      refusedIs (exec (.movStore .eax .eax) (launched (referenceCfg 1 false) [0x89, 0x00])) (.notAdmittedAccess 0) = true := by
  decide
/-- The last instruction of a text, and one with an instruction after it. -/
theorem witness_StepRunsTheDecodedInstruction_next :
    nextIs (exec (.jmp 0x00) (launched (referenceCfg 1 false) [0xEB, 0x00])) (fun t => t.atEnd) = true ∧
      nextIs (exec (.jmp 0xFE) (launched (referenceCfg 1 false) [0xEB, 0xFE]))
        (fun t => match fetchInstr t with
          | .ok j => j == .jmp 0xFE
          | .error _ => false) = true := by decide
/-- An instruction with a byte after it that starts no row. -/
theorem witness_StepRunsTheDecodedInstruction_nextRefused :
    nextIs (exec (.jmp 0x00) (launched (referenceCfg 1 false) [0xEB, 0x00, 0x90]))
      (fun t => !t.atEnd && match fetchInstr t with
        | .ok _ => false
        | .error r => r == .notAdmittedBytes [0x90] 0x1002 (.opcode 0x90)) = true := by decide
theorem witness_UnadmittedFetchIsRefused_outside :
    (launched (referenceCfg 1 false) [0x90]).launch.textFrom 0x1002 = none ∧ (0x1002 : Nat) ≠ 0x1000 + 1 := by decide
theorem witness_UnadmittedFetchIsRefused_bytes :
    (launched (referenceCfg 1 false) [0x90]).launch.textFrom 0x1000 = some [0x90] ∧
      decode [0x90] = .error (.opcode 0x90) ∧ ∀ imm, Reject.opcode 0x90 ≠ .count imm :=
  ⟨by decide, by decide, fun _ h => (nomatch h)⟩
theorem witness_UnadmittedFetchIsRefused_count :
    (launched (referenceCfg 1 false) [0xC1, 0xE8, 0xE0]).launch.textFrom 0x1000 = some [0xC1, 0xE8, 0xE0] ∧
      decode [0xC1, 0xE8, 0xE0] = .error (.count 0xE0) := by decide

/-- A state in the invariant with a step that gives a next state. -/
theorem witness_EveryStepKeepsTheMachineInvariant :
    (launched (referenceCfg 1 false) [0x31, 0xC9]).Inv ∧ completes (step (launched (referenceCfg 1 false) [0x31, 0xC9])) = true := by
  unfold State.Inv; decide
theorem witness_NoStepChangesWhatTheLaunchFixes :
    completes (step (launched (referenceCfg 1 false) [0x0F, 0xA2])) = true := by decide
/-- The three causes: an access, the next fetch, and below a branch target. -/
theorem witness_OnlyTheListedCausesRefuseAStep :
    (launched (referenceCfg 1 false) [0x89, 0x00]).Inv ∧
      refusedIs (step (launched (referenceCfg 1 false) [0x89, 0x00])) (.notAdmittedAccess 0) = true ∧
      (State.reset.withFetchWord 16 0x80EB).Inv ∧
      refusedIs (step (State.reset.withFetchWord 16 0x80EB)) (.notAdmittedBytes [] 0x3FFF82 .outsideText) = true := by
  unfold State.Inv; decide
theorem witness_OnlyTheListedCausesRefuseAStep_target :
    { launched (referenceCfg 1 false) [0xEB, 0x80] with
        rip := 0, launch := { (launched (referenceCfg 1 false) [0xEB, 0x80]).launch with base := 0 } }.Inv ∧
      refusedIs (step { launched (referenceCfg 1 false) [0xEB, 0x80] with
        rip := 0, launch := { (launched (referenceCfg 1 false) [0xEB, 0x80]).launch with base := 0 } })
        (.notAdmittedTarget (-126)) = true := by
  unfold State.Inv; decide

theorem witness_OnlyDestinationsChangeAndTheirUpperHalfIsZero :
    completes (exec .cpuid plain) = true ∧ completes (exec (.andImm .esi 1) plain) = true := by decide
theorem witness_OnlyFiveInstructionsWriteFlags :
    writesFlags (.movzx .eax .ebx) = false ∧ completes (exec (.movzx .eax .ebx) plain) = true := by decide
theorem witness_OnlyTheStoreChangesMemory :
    (∀ rm reg, Instr.movLoad .eax .edi ≠ .movStore rm reg) ∧
      completes (exec (.movLoad .eax .edi) (withReg plain 7 0x2FFC)) = true :=
  ⟨fun _ _ h => (nomatch h), by decide⟩
theorem witness_EveryChangedByteIsAdmittedData :
    nextIs (exec (.movStore .edi .edi) (withReg plain 7 0x2000))
      (fun t => readByte t.mem 0x2001 != readByte (withReg plain 7 0x2000).mem 0x2001) = true := by decide
theorem witness_HelpersDoNotReadTheConfiguration :
    Instr.movStore .edi .eax ≠ .cpuid ∧ completes (exec (.movStore .edi .eax) (withReg plain 7 0x2000)) = true ∧
      refusedIs (exec (.movStore .edi .eax) plain) (.notAdmittedAccess 0) = true := by decide

/-- The highest `rip` from which each length completes. -/
theorem witness_completion_bounds :
    (0xFFFFFFFFFFFFFFFD : Word).toNat + 2 < 2 ^ 64 ∧ (0xFFFFFFFFFFFFFFFC : Word).toNat + 3 < 2 ^ 64 ∧
      (0xFFFFFFFFFFFFFFFA : Word).toNat + 5 < 2 ^ 64 ∧ (0xFFFFFFFFFFFFFFF9 : Word).toNat + 6 < 2 ^ 64 := by decide
/-- Each of CPUID, MOV imm, MOV reg, MOVZX, AND, CMP, TEST and XOR completes there. -/
theorem witness_results_complete :
    completes (exec .cpuid { plain with rip := 0xFFFFFFFFFFFFFFFD }) = true ∧
      completes (exec (.movRegImm .esp 1) { plain with rip := 0xFFFFFFFFFFFFFFFA }) = true ∧
      completes (exec (.movRegReg .esp .eax) { plain with rip := 0xFFFFFFFFFFFFFFFD }) = true ∧
      completes (exec (.movzx .esp .ebx) { plain with rip := 0xFFFFFFFFFFFFFFFC }) = true ∧
      completes (exec (.andImm .esp 1) { plain with rip := 0xFFFFFFFFFFFFFFF9 }) = true ∧
      completes (exec (.cmpImm .esp 1) { plain with rip := 0xFFFFFFFFFFFFFFF9 }) = true ∧
      completes (exec (.testImm .esp 1) { plain with rip := 0xFFFFFFFFFFFFFFF9 }) = true ∧
      completes (exec (.xorReg .esp .eax) { plain with rip := 0xFFFFFFFFFFFFFFFD }) = true := by decide
/-- Both register classes of MOVZX, and the least and greatest refused extensions of TEST and SHR. -/
theorem witness_operand_classes :
    Reg.ebx.index.val < 4 ∧ 4 ≤ Reg.esp.index.val ∧ Reg.edi ≠ .esp ∧ Reg.edi ≠ .ebp ∧ (Reg.ebp = .esp ∨ Reg.ebp = .ebp) ∧ (1 ≤ 7 ∧ 7 < 8) ∧ (0 ≠ 5 ∧ 0 < 8) := by
  decide

theorem witness_EnumeratedFieldsStandAtTheirBits : (referenceCfg 2 true).avx10Supported = true := by decide
theorem witness_UndefinedAnswersMayBeAnyValue :
    noAvx10Cfg.avx10Supported = false ∧ (2 : Half) ≠ 0 ∧ (referenceCfg 1 true).avx10Supported = true ∧
      (CpuidAnswer.mk 0 0 0 0x00080000).edx.getLsbD 19 = (referenceCfg 1 true).avx10Supported := by decide
theorem witness_EnumeratedFieldsAreConstant :
    plain.launch.cfg.avx10Supported = true ∧ completes (exec .cpuid (withReg plain 0 0x24)) = true ∧
      readReg32 (withReg plain 0 0x24) .eax = 0x24 ∧
      readReg32 (withReg plain 0 0x24) .ecx = 0 ∧ completes (exec .cpuid (withReg (withReg plain 0 7) 1 1)) = true ∧
      readReg32 (withReg (withReg plain 0 7) 1 1) .eax = 7 ∧ readReg32 (withReg (withReg plain 0 7) 1 1) .ecx = 1 := by decide
/-- The (07H, 01H) clause has no condition on AVX10. -/
theorem witness_EnumeratedFieldsAreConstant_absent :
    completes (exec .cpuid (withReg (withReg (launched noAvx10Cfg []) 0 7) 1 1)) = true ∧
      readReg32 (withReg (withReg (launched noAvx10Cfg []) 0 7) 1 1) .ecx = 1 := by decide
theorem witness_RangeLeavesAreAnsweredOnlyWhereExposed :
    { referenceCfg 1 true with exposeRangeLeaves := true }.exposeRangeLeaves = true ∧
      ((7 : Half) ≠ 0x24 ∧ ¬((7 : Half) = 7 ∧ (2 : Half) = 1) ∧ (7 : Half) ≠ 0 ∧ ¬((7 : Half) = 7 ∧ (2 : Half) = 0)) ∧
      ((0 : Half) ≠ 0x24 ∧ (referenceCfg 1 true).exposeRangeLeaves = false) := by decide
theorem witness_DetectionIsDownwardClosed :
    1 ≤ 2 ∧ VecLen.v256.bits ≤ VecLen.v512.bits ∧ hasAvx10 ones plain 2 .v512 = true := by decide
theorem witness_EvexSetsNeedBothChecks : cfgWellFormed plain.launch.cfg = true := by decide
theorem witness_ScalarAndOpmaskInstructionsAreAvailable :
    ((referenceCfg 1 false).avx10Supported = true ∧ (referenceCfg 1 false).vl512 = false) ∧
      (referenceCfg 1 true).avx10Supported = true ∧ (referenceCfg 1 true).vl512 = true := by decide
theorem witness_LengthBitsAgreeWithTheMaximumLength :
    (cfgWellFormed (referenceCfg 1 false) = true ∧ (referenceCfg 1 false).avx10Supported = true ∧
      (referenceCfg 1 false).isPcore = false) ∧ cfgWellFormed (referenceCfg 1 true) = true := by decide
theorem witness_GuestOfTheVirtualMachineSeesAvx10At256 :
    (cfgWellFormed (referenceCfg 2 true) = true ∧ (referenceCfg 2 true).avx10Supported = true) ∧
      cfgWellFormed (referenceCfg 2 false) = true ∧ (referenceCfg 2 false).avx10Supported = true ∧
      (referenceCfg 2 false).vl512 = false := by decide
theorem witness_VersionsAreInclusive : inFeatures 1 (.isa .vaes) = true := by decide
theorem witness_LegacyBinaryIsContainedOnlyAt512 :
    (referenceCfg 1 true).avx10Supported = true ∧ (referenceCfg 1 false).avx10Supported = true := by decide

/-- At the last admitted address, with canonical memory, and one past it. -/
theorem witness_StoreResult :
    (plain.launch.admitted 0x2FFC = true ∧ Memory.wf plain.mem = true ∧ plain.rip.toNat + 2 < 2 ^ 64) ∧
      plain.launch.admitted 0x2FFD = false ∧ plain.launch.admitted 0x1FFF = false := by decide
theorem witness_LoadResult :
    plain.launch.admitted (readReg64 (withReg plain 7 0x2000) .edi) = true ∧
      plain.launch.admitted (readReg64 plain .edi) = false := by decide
theorem witness_LoadAfterStoreGivesTheStoredValue :
    Memory.wf (withReg plain 7 0x2000).mem = true ∧
      nextIs (exec (.movStore .edi .eax) (withReg plain 7 0x2000))
        (fun t => readReg64 t .edi == 0x2000 && completes (exec (.movLoad .ebx .edi) t)) = true := by decide
theorem witness_CmpOverflowIsSignedOverflow : completes (exec (.cmpImm .eax 1) plain) = true := by decide
/-- The least and greatest counts that shift, and the two that do not at the edges. -/
theorem witness_ShrResult :
    ((0x01 : Byte).toNat % 32 ≠ 0 ∧ (0x1F : Byte).toNat % 32 ≠ 0 ∧ (0xFF : Byte).toNat % 32 ≠ 0) ∧
      ((0x00 : Byte).toNat % 32 = 0 ∧ (0xE0 : Byte).toNat % 32 = 0) ∧ completes (exec (.shrImm .esp 0x1F) plain) = true := by
  decide
/-- Targets at the two ends of the address space, and one past each. -/
theorem witness_branch_targets :
    (0 ≤ ((126 : Word).toNat : Int) + 2 + (0x80 : Byte).toInt ∧
        ((126 : Word).toNat : Int) + 2 + (0x80 : Byte).toInt < 18446744073709551616) ∧
      ((125 : Word).toNat : Int) + 2 + (0x80 : Byte).toInt < 0 ∧
      ((0xFFFFFFFFFFFFFF7E : Word).toNat : Int) + 2 + (0x7F : Byte).toInt < 18446744073709551616 ∧
      18446744073709551616 ≤ ((0xFFFFFFFFFFFFFF7F : Word).toNat : Int) + 2 + (0x7F : Byte).toInt := by decide
theorem witness_branch_conditions :
    (withCZ plain false true).flags.ZF = true ∧ (withCZ plain true false).flags.ZF = false ∧
      (withCZ plain true false).flags.CF = true ∧ (withCZ plain false true).flags.CF = false ∧
      plain.rip.toNat + 2 < 2 ^ 64 := by decide
theorem witness_BranchAfterCompareIsUnsigned :
    nextIs (exec (.cmpImm .eax 2) (withReg plain 0 1))
      (fun t => completes (exec (.jb 7) t) && completes (exec (.jae 7) t)) = true := by decide

end Sys2Proof.Tests
end

/-! PROOFS. The CPUID instruction (40_cpuid_enumeration.md R43): its bytes, its completion, and every register after it. -/

namespace Sys2Proof.Machine

/-- `0F A2` is CPUID, whatever follows (30_encoding.md R34). -/
theorem decode_cpuidBytes (rest : List Byte) : decode (0x0F :: 0xA2 :: rest) = .ok (.cpuid, rest) := rfl

/-- CPUID completes where the next `rip` is a 64-bit address: its effect, then `rip` past its two bytes. -/
theorem exec_cpuid_of_range {s : State} (h : s.rip.toNat + 2 < 2 ^ 64) :
    exec .cpuid s = .next { cpuidEffect Config.draw s with rip := s.rip + 2 } :=
  advance_of_range (cpuidEffect Config.draw s) h

section Effect
variable (draw : (w : Nat) → Nat → BitVec w) (s : State)

/-- The answer CPUID writes: leaf and sub-leaf are those of the state before any write (30_encoding.md R35). -/
def cpuidAnswerAt : CpuidAnswer :=
  cpuidTable draw s.launch.cfg (readReg32 s .eax) (readReg32 s .ecx) s.draws

/-- Every general register after CPUID: the four values of the answer with zero upper halves, the others as before. -/
theorem cpuidEffect_get (n : Fin 16) :
    (cpuidEffect draw s).x.get n =
      if n = 0 then (cpuidAnswerAt draw s).eax.setWidth 64 else if n = 1 then (cpuidAnswerAt draw s).ecx.setWidth 64
      else if n = 2 then (cpuidAnswerAt draw s).edx.setWidth 64
      else if n = 3 then (cpuidAnswerAt draw s).ebx.setWidth 64 else s.x.get n :=
  writeAnswer_get s (cpuidAnswerAt draw s) n

/-- The answer's EAX stands in EAX with a zero upper half; ECX, EDX and EBX likewise below. -/
theorem cpuidEffect_get_eax :
    (cpuidEffect draw s).x.get 0 = (cpuidAnswerAt draw s).eax.setWidth 64 := by simp [cpuidEffect_get]
theorem cpuidEffect_get_ecx :
    (cpuidEffect draw s).x.get 1 = (cpuidAnswerAt draw s).ecx.setWidth 64 := by simp [cpuidEffect_get]
theorem cpuidEffect_get_edx :
    (cpuidEffect draw s).x.get 2 = (cpuidAnswerAt draw s).edx.setWidth 64 := by simp [cpuidEffect_get]
theorem cpuidEffect_get_ebx :
    (cpuidEffect draw s).x.get 3 = (cpuidAnswerAt draw s).ebx.setWidth 64 := by simp [cpuidEffect_get]

/-- CPUID writes no register but its four destinations. -/
theorem cpuidEffect_keepsRegsBut : keepsRegsBut [0, 1, 2, 3] s (cpuidEffect draw s) := by
  intro n hn
  simp only [List.mem_cons, List.not_mem_nil, or_false, not_or] at hn
  obtain ⟨h0, h1, h2, h3⟩ := hn
  rw [cpuidEffect_get, if_neg h0, if_neg h1, if_neg h2, if_neg h3]

/-- CPUID touches no memory (20_memory.md R21). -/
theorem cpuidEffect_keepsMemory : keepsMemory s (cpuidEffect draw s) :=
  fun a => congrArg (readByte · a) (cpuidEffect_mem draw s)

/-- CPUID changes no launch parameter, vector register or opmask register. -/
theorem cpuidEffect_keepsFixed : keepsFixed s (cpuidEffect draw s) :=
  ⟨cpuidEffect_launch draw s, cpuidEffect_vec draw s, cpuidEffect_opmask draw s⟩

end Effect

end Sys2Proof.Machine

namespace Sys2Proof.Proofs

open Sys2Proof.Machine

/-- Settles O20: CPUID is `cpuidEffect` with `rip` advanced, so each clause is a lemma about that effect. -/
theorem cpuidWritesTheTableAnswer : Obligations.CpuidWritesTheTableAnswer := by
  refine ⟨decode_cpuidBytes, fun s h => ⟨_, exec_cpuid_of_range h, ?_⟩⟩
  -- The frames read fields of `{ cpuidEffect … with rip := … }`: reduce them to fields of the effect itself.
  dsimp only [keepsRegsBut, keepsMemory, keepsFixed]
  exact ⟨cpuidEffect_get_eax _ s, cpuidEffect_get_ebx _ s, cpuidEffect_get_ecx _ s, cpuidEffect_get_edx _ s,
    cpuidEffect_keepsRegsBut _ s, cpuidEffect_flags _ s, cpuidEffect_keepsMemory _ s, cpuidEffect_keepsFixed _ s, rfl⟩

end Sys2Proof.Proofs

/-! PROOFS. The helper instructions (42_helper_instructions.md sections 2 and 3). First the layer they share: the bytes of
each form taken apart, a completed instruction as its effect with `rip` moved on, and what every effect leaves unchanged;
then the values and flags; then the statements. -/

namespace Sys2Proof

/-! ### Which registers a form admits -/

/-- The registers that cannot stand as an address are ESP and EBP (30_encoding.md R38). -/
theorem Reg.canAddress_iff (r : Reg) : r.canAddress = true ↔ ¬(r = .esp ∨ r = .ebp) := by cases r <;> decide

/-- The registers with an 8-bit form are numbers 0 to 3 (30_encoding.md R38). -/
theorem Reg.hasLowByte_iff (r : Reg) : r.hasLowByte = true ↔ r.index.val < 4 := by cases r <;> decide

/-! ### Decoding after byte 0, ModRM given by its fields -/

section ModRM
variable (rm reg : Reg) (rest : List Byte)

theorem decode89_register :
    decode89 (modRM 3 reg.bits rm.bits :: rest) = .ok (.movRegReg rm reg, rest) := by simp [decode89]

theorem decode89_memory (hsp : rm ≠ .esp) (hbp : rm ≠ .ebp) :
    decode89 (modRM 0 reg.bits rm.bits :: rest) = .ok (.movStore rm reg, rest) := by
  simp [decode89, Reg.canAddress_iff, hsp, hbp]

theorem decode89_noAddress (h : rm = .esp ∨ rm = .ebp) :
    decode89 (modRM 0 reg.bits rm.bits :: rest) = .error (.form 0x89 (modRM 0 reg.bits rm.bits)) := by
  simp [decode89, Reg.canAddress_iff, h]

theorem decode8B_memory (hsp : rm ≠ .esp) (hbp : rm ≠ .ebp) :
    decode8B (modRM 0 reg.bits rm.bits :: rest) = .ok (.movLoad reg rm, rest) := by
  simp [decode8B, Reg.canAddress_iff, hsp, hbp]

theorem decode8B_noAddress (h : rm = .esp ∨ rm = .ebp) :
    decode8B (modRM 0 reg.bits rm.bits :: rest) = .error (.form 0x8B (modRM 0 reg.bits rm.bits)) := by
  simp [decode8B, Reg.canAddress_iff, h]

/-- Opcode `8B` has no register form (42_helper_instructions.md R85). -/
theorem decode8B_register :
    decode8B (modRM 3 reg.bits rm.bits :: rest) = .error (.form 0x8B (modRM 3 reg.bits rm.bits)) := by
  simp [decode8B]

theorem decode31_register :
    decode31 (modRM 3 reg.bits rm.bits :: rest) = .ok (.xorReg rm reg, rest) := by simp [decode31]

theorem decodeMovzx_lowByte (h : rm.index.val < 4) :
    decodeMovzx (modRM 3 reg.bits rm.bits :: rest) = .ok (.movzx reg rm, rest) := by
  simp [decodeMovzx, (Reg.hasLowByte_iff rm).mpr h]

theorem decodeMovzx_noLowByte (h : 4 ≤ rm.index.val) :
    decodeMovzx (modRM 3 reg.bits rm.bits :: rest) = .error (.form 0xB6 (modRM 3 reg.bits rm.bits)) := by
  have : ¬rm.hasLowByte = true := fun low => absurd ((Reg.hasLowByte_iff rm).mp low) (by omega)
  simp [decodeMovzx, this]

theorem decode81_and : decode81 (modRM 3 4 rm.bits :: rest) = decodeImm32 (.andImm rm) rest := by
  simp [decode81]

theorem decode81_cmp : decode81 (modRM 3 7 rm.bits :: rest) = decodeImm32 (.cmpImm rm) rest := by
  simp [decode81]

theorem decodeF7_test : decodeF7 (modRM 3 0 rm.bits :: rest) = decodeImm32 (.testImm rm) rest := by
  simp [decodeF7]

/-- The other extensions of `F7` are not admitted (42_helper_instructions.md R89). -/
theorem decodeF7_of_ne_zero {ext : BitVec 3} (h : ext ≠ 0#3) :
    decodeF7 (modRM 3 ext rm.bits :: rest) = .error (.form 0xF7 (modRM 3 ext rm.bits)) := by
  simp [decodeF7, h]

end ModRM

/-- Byte 0 of MOV r32, imm32 holds the destination in its low three bits (30_encoding.md R33). -/
theorem decode_movRegImm_opcode (rd : Reg) (rest : List Byte) :
    decode (BitVec.ofNat 8 (0xB8 + rd.index.val) :: rest) = decodeImm32 (.movRegImm rd) rest := by
  cases rd <;> rfl

/-- The four bytes of an immediate, written out (30_encoding.md R39). -/
theorem decodeImm32_bytes (mk : Half → Instr) (imm : Half) (rest : List Byte) :
    decodeImm32 mk (imm.extractLsb' 0 8 :: imm.extractLsb' 8 8 :: imm.extractLsb' 16 8 ::
      imm.extractLsb' 24 8 :: rest) = .ok (mk imm, rest) :=
  decodeImm32_imm32Bytes mk imm rest

/-! ### Bytes of words -/

/-- The low four bytes of a register are those of its low half. -/
theorem byteOf_setWidth (w : Word) {k : Nat} (h : k < 4) : byteOf (w.setWidth 32) k = w.extractLsb' (8 * k) 8 := by
  apply BitVec.eq_of_getLsbD_eq
  intro i hi
  have : 8 * k + i < 32 := by omega
  simp [byteOf, BitVec.getLsbD_extractLsb', this]

end Sys2Proof

namespace Sys2Proof.Machine

/-- Byte `k` of a 4-byte read is the byte at the address `k` above (20_memory.md R22). -/
theorem byteOf_read32 (m : Memory) (a : Nat) {k : Nat} (h : k < 4) :
    byteOf (read32 m a) k = readByte m (a + k) := by
  have bytes := imm32Bytes_le32 (readByte m a) (readByte m (a + 1)) (readByte m (a + 2)) (readByte m (a + 3))
  simp only [imm32Bytes, List.cons.injEq, and_true] at bytes
  obtain ⟨h0, h1, h2, h3⟩ := bytes
  interval_cases k <;> assumption

/-- Byte `k` of a 4-byte write stands at the address `k` above (20_memory.md R22). -/
theorem readByte_write32_byte {m : Memory} {a : Nat} (v : Half) (hm : Memory.wf m = true) (lt : a + 3 < 2 ^ 64)
    {k : Nat} (h : k < 4) : readByte (write32 m a v) (a + k) = byteOf v k := by
  obtain ⟨h0, h1, h2, h3⟩ := readByte_write32 v hm lt
  interval_cases k <;> assumption

/-! ### A register just written -/

section RegisterWrite
variable (s : State) (r : Reg) (v : Half)

/-- A 32-bit register write changes its register alone. -/
theorem writeReg32_keepsRegsBut : keepsRegsBut [r.index] s (writeReg32 s r v) :=
  fun _ hn => writeReg32_get_other s r v (List.ne_of_not_mem_cons hn)

/-- Bits 63:32 of the register are zero (10_state.md R10). -/
theorem writeReg32_get_lt : ((writeReg32 s r v).x.get r.index).toNat < 2 ^ 32 := by
  rw [writeReg32_get_same, BitVec.toNat_setWidth_of_le (by omega)]
  exact v.isLt

/-- The low four bytes of the register are those of the value. -/
theorem writeReg32_get_byte {k : Nat} (h : k < 4) :
    ((writeReg32 s r v).x.get r.index).extractLsb' (8 * k) 8 = byteOf v k := by
  rw [writeReg32_get_same, ← byteOf_setWidth _ h, BitVec.setWidth_setWidth_of_le _ (by omega), BitVec.setWidth_eq]

end RegisterWrite

/-! ### What an effect leaves unchanged -/

section EffectFrame
variable (i : Instr) (s : State)

@[simp] theorem effect_rip : (effect i s).rip = s.rip := by cases i <;> rfl

/-- No instruction changes a launch parameter, a vector register or an opmask register (10_state.md R13, R14). -/
theorem effect_keepsFixed : keepsFixed s (effect i s) := by cases i <;> exact ⟨rfl, rfl, rfl⟩

/-- An instruction changes no register but its destinations (10_state.md R10). -/
theorem effect_keepsRegsBut : keepsRegsBut (destinations i) s (effect i s) := by
  cases i with
  | cpuid => exact cpuidEffect_keepsRegsBut _ s
  | movRegImm => exact writeReg32_keepsRegsBut s _ _
  | movRegReg => exact writeReg32_keepsRegsBut s _ _
  | movLoad => exact writeReg32_keepsRegsBut s _ _
  | movzx => exact writeReg32_keepsRegsBut s _ _
  | andImm => exact writeReg32_keepsRegsBut s _ _
  | shrImm => exact writeReg32_keepsRegsBut s _ _
  | xorReg => exact writeReg32_keepsRegsBut s _ _
  | _ => exact fun _ _ => rfl

variable {i}

/-- The instructions that write no flag (10_state.md R12). -/
theorem effect_flags (h : writesFlags i = false) : (effect i s).flags = s.flags := by
  cases i with
  | andImm => cases h
  | cmpImm => cases h
  | testImm => cases h
  | shrImm => cases h
  | xorReg => cases h
  | _ => rfl

/-- Memory is written by the store alone (20_memory.md R24). -/
theorem effect_mem (h : ∀ rm reg, i ≠ .movStore rm reg) : (effect i s).mem = s.mem := by
  cases i with
  | movStore rm reg => exact absurd rfl (h rm reg)
  | _ => rfl

end EffectFrame

/-! ### Completion -/

/-- The state an instruction leaves that completes and goes on to the next one (10_state.md R11). -/
def completed (i : Instr) (s : State) : State :=
  { effect i s with rip := s.rip + BitVec.ofNat 64 (instrLength i) }

/-- An instruction that goes on to the next one completes where that is a 64-bit address. -/
theorem exec_eq_completed {i : Instr} {s : State} (ha : exec i s = advance (effect i s) (instrLength i))
    (h : s.rip.toNat + instrLength i < 2 ^ 64) : exec i s = .next (completed i s) := by
  rw [ha, advance_of_range _ (by rwa [effect_rip]), effect_rip, completed]

section Completed
variable (i : Instr) (s : State)

theorem completed_keepsFixed : keepsFixed s (completed i s) := effect_keepsFixed i s

theorem completed_keepsRegsBut : keepsRegsBut (destinations i) s (completed i s) := effect_keepsRegsBut i s

variable {i}

theorem completed_flags (h : writesFlags i = false) : (completed i s).flags = s.flags := effect_flags s h

theorem completed_keepsMemory (h : ∀ rm reg, i ≠ .movStore rm reg) : keepsMemory s (completed i s) :=
  fun a => congrArg (readByte · a) (effect_mem s h)

end Completed

section MemoryForms
variable {s : State} {rm : Reg} (reg : Reg)

/-- An admitted store goes on to the next instruction (20_memory.md R32). -/
theorem exec_movStore_of_admitted (h : s.launch.admitted (readReg64 s rm) = true) :
    exec (.movStore rm reg) s = advance (effect (.movStore rm reg) s) 2 := if_pos h

theorem exec_movStore_of_not_admitted (h : s.launch.admitted (readReg64 s rm) = false) :
    exec (.movStore rm reg) s = .refused (.notAdmittedAccess (readReg64 s rm)) := if_neg (by simp [h])

/-- An admitted load goes on to the next instruction (20_memory.md R32). -/
theorem exec_movLoad_of_admitted (h : s.launch.admitted (readReg64 s rm) = true) :
    exec (.movLoad reg rm) s = advance (effect (.movLoad reg rm) s) 2 := if_pos h

theorem exec_movLoad_of_not_admitted (h : s.launch.admitted (readReg64 s rm) = false) :
    exec (.movLoad reg rm) s = .refused (.notAdmittedAccess (readReg64 s rm)) := if_neg (by simp [h])

end MemoryForms

/-! ### Flags -/

/-- `LogicFlags(r)` are the flags of `r`, whatever is drawn for AF (42_helper_instructions.md R81). -/
theorem hasLogicFlags_logicFlags (r : Half) (af : Bool) : hasLogicFlags r (logicFlags r af) :=
  ⟨rfl, rfl, beq_iff_eq, rfl, evenParity_iff r⟩

section CmpFlags
variable (a b : Half)

/-- CF is the borrow of the unsigned difference (42_helper_instructions.md R88). -/
theorem cmpFlags_CF : (cmpFlags a b).CF = true ↔ a.toNat < b.toNat := decide_eq_true_iff

/-- ZF says that the operands are equal. -/
theorem cmpFlags_ZF : (cmpFlags a b).ZF = true ↔ a = b := beq_iff_eq.trans sub_eq_zero

theorem cmpFlags_SF : (cmpFlags a b).SF = (a - b).getLsbD 31 := rfl

/-- OF is set where the signs of the operands differ and the result does not have the sign of the first. -/
theorem cmpFlags_OF : (cmpFlags a b).OF = true ↔
    a.getLsbD 31 ≠ b.getLsbD 31 ∧ (a - b).getLsbD 31 ≠ a.getLsbD 31 := by
  rw [cmpFlags, Bool.and_eq_true, bne_iff_ne, bne_iff_ne]

theorem cmpFlags_PF : (cmpFlags a b).PF = true ↔ lowByteOnes (a - b) % 2 = 0 := evenParity_iff (a - b)

/-- AF is the borrow out of the low four bits. -/
theorem cmpFlags_AF : (cmpFlags a b).AF = true ↔ a.toNat % 16 < b.toNat % 16 := by
  rw [cmpFlags, decide_eq_true_iff, BitVec.extractLsb'_toNat, BitVec.extractLsb'_toNat, Nat.shiftRight_zero,
    Nat.shiftRight_zero]

end CmpFlags

end Sys2Proof.Machine

namespace Sys2Proof.Proofs

open Sys2Proof.Machine

/-! ### Data movement -/

/-- Settles O35: the destination holds the immediate, and the frames of `completed` give the rest. -/
theorem movImmediateResult : Obligations.MovImmediateResult := by
  refine fun rd imm => ⟨fun rest => ?_, fun s h => ⟨_, exec_eq_completed rfl h, ?_⟩⟩
  · rw [decode_movRegImm_opcode, decodeImm32_bytes]
  · exact ⟨writeReg32_get_same s rd imm, completed_keepsRegsBut (.movRegImm rd imm) s, completed_flags s rfl,
      completed_keepsMemory s nofun, completed_keepsFixed _ s, rfl⟩

/-- Settles O36: the value written is the low half of the source as it was, so `rm = reg` is no case of its own. -/
theorem movRegisterResult : Obligations.MovRegisterResult := by
  refine fun rm reg => ⟨fun rest => ?_, fun s h => ⟨_, exec_eq_completed rfl h, ?_⟩⟩
  · rw [modRMByte_registers (by decide)]
    exact decode89_register rm reg rest
  · exact ⟨writeReg32_get_same s rm (readReg32 s reg), completed_keepsRegsBut (.movRegReg rm reg) s,
      completed_flags s rfl, completed_keepsMemory s nofun, completed_keepsFixed _ s, rfl⟩

/-- Settles O37: admission gives the bound that the laws of a 4-byte write ask for. -/
theorem storeResult : Obligations.StoreResult := by
  intro rm reg
  rw [modRMByte_registers (by decide)]
  refine ⟨fun hsp hbp rest => decode89_memory rm reg rest hsp hbp,
    fun h rest => ⟨_, decode89_noAddress rm reg rest h⟩,
    fun s => ⟨exec_movStore_of_not_admitted reg, fun ha h => ?_⟩⟩
  obtain ⟨-, top⟩ := (admitted_iff _ _).mp ha
  refine ⟨_, exec_eq_completed (exec_movStore_of_admitted reg ha) h, fun wf k hk => ?_,
    fun a out => readByte_write32_other _ out, completed_keepsRegsBut (.movStore rm reg) s, completed_flags s rfl,
    completed_keepsFixed _ s, rfl⟩
  exact (readByte_write32_byte _ wf top hk).trans (byteOf_setWidth _ hk)

/-- Settles O38: the value written is a 4-byte read at the address held before the write. -/
theorem loadResult : Obligations.LoadResult := by
  intro reg rm
  rw [modRMByte_registers (by decide), modRMByte_registers (by decide)]
  refine ⟨fun hsp hbp rest => decode8B_memory rm reg rest hsp hbp,
    fun h rest => ⟨_, decode8B_noAddress rm reg rest h⟩, fun rest => ⟨_, decode8B_register rm reg rest⟩,
    fun s => ⟨exec_movLoad_of_not_admitted reg, fun ha h => ?_⟩⟩
  refine ⟨_, exec_eq_completed (exec_movLoad_of_admitted reg ha) h, fun k hk => ?_, writeReg32_get_lt s reg _,
    completed_keepsRegsBut (.movLoad reg rm) s, completed_flags s rfl, completed_keepsMemory s nofun,
    completed_keepsFixed _ s, rfl⟩
  exact (writeReg32_get_byte s reg _ hk).trans (byteOf_read32 _ _ hk)

/-- Settles O40: a byte widened to 32 bits and then to 64 is the byte widened to 64. -/
theorem movzxResult : Obligations.MovzxResult := by
  intro reg rm
  rw [modRMByte_registers (by decide)]
  refine ⟨fun low rest => decodeMovzx_lowByte rm reg rest low,
    fun high rest => ⟨_, decodeMovzx_noLowByte rm reg rest high⟩, fun s h => ⟨_, exec_eq_completed rfl h, ?_⟩⟩
  have value := writeReg32_get_same s reg ((readReg8 s rm).setWidth 32)
  rw [BitVec.setWidth_setWidth (by omega)] at value
  exact ⟨value, completed_keepsRegsBut (.movzx reg rm) s, completed_flags s rfl, completed_keepsMemory s nofun,
    completed_keepsFixed _ s, rfl⟩

/-! ### Logic and compare -/

/-- Settles O41: the flags are `LogicFlags` of the value written. -/
theorem andResult : Obligations.AndResult := by
  refine fun rm imm => ⟨fun rest => ?_, fun s h => ⟨_, exec_eq_completed rfl h, ?_⟩⟩
  · rw [modRMByte_extension (by decide) (by decide)]
    exact (decode81_and rm _).trans (decodeImm32_bytes _ imm rest)
  · exact ⟨writeReg32_get_same s rm (readReg32 s rm &&& imm), hasLogicFlags_logicFlags _ _,
      completed_keepsRegsBut (.andImm rm imm) s, completed_keepsMemory s nofun, completed_keepsFixed _ s, rfl⟩

/-- Settles O42: each flag is a lemma about `cmpFlags`. -/
theorem cmpResult : Obligations.CmpResult := by
  refine fun rm imm => ⟨fun rest => ?_, fun s h => ⟨_, exec_eq_completed rfl h, ?_⟩⟩
  · rw [modRMByte_extension (by decide) (by decide)]
    exact (decode81_cmp rm _).trans (decodeImm32_bytes _ imm rest)
  · exact ⟨cmpFlags_CF _ imm, cmpFlags_ZF _ imm, cmpFlags_SF _ imm, cmpFlags_OF _ imm, cmpFlags_PF _ imm,
      cmpFlags_AF _ imm, completed_keepsRegsBut (.cmpImm rm imm) s, completed_keepsMemory s nofun,
      completed_keepsFixed _ s, rfl⟩

/-- Settles O44: the flags are `LogicFlags` of a value that is not written; the nonzero extensions of `F7` are refused. -/
theorem testResult : Obligations.TestResult := by
  refine fun rm imm => ⟨fun rest => ?_, fun e rest h1 h8 => ?_, fun s h => ⟨_, exec_eq_completed rfl h, ?_⟩⟩
  · rw [modRMByte_extension (by decide) (by decide)]
    exact (decodeF7_test rm _).trans (decodeImm32_bytes _ imm rest)
  · have nonzero : BitVec.ofNat 3 e ≠ 0#3 := by bv_omega
    rw [modRMByte_extension (by decide) h8]
    exact ⟨_, decodeF7_of_ne_zero rm rest nonzero⟩
  · exact ⟨hasLogicFlags_logicFlags _ _, completed_keepsRegsBut (.testImm rm imm) s, completed_keepsMemory s nofun,
      completed_keepsFixed _ s, rfl⟩

/-- Settles O46: with equal operands the result is 0 whatever the register held. -/
theorem xorResult : Obligations.XorResult := by
  refine fun rm reg => ⟨fun rest => ?_, fun s h => ⟨_, exec_eq_completed rfl h, ?_⟩⟩
  · rw [modRMByte_registers (by decide)]
    exact decode31_register rm reg rest
  · have value := writeReg32_get_same s rm (readReg32 s rm ^^^ readReg32 s reg)
    have flags := hasLogicFlags_logicFlags (readReg32 s rm ^^^ readReg32 s reg) (drawBit s.draws)
    refine ⟨value, flags, ?_, completed_keepsRegsBut (.xorReg rm reg) s, completed_keepsMemory s nofun,
      completed_keepsFixed _ s, rfl⟩
    rintro rfl
    obtain ⟨-, -, zf, -, pf⟩ := flags
    have zero : readReg32 s rm ^^^ readReg32 s rm = 0 := BitVec.xor_self
    exact ⟨value.trans (by rw [zero]; rfl), zf.mpr zero, pf.mpr (by rw [zero]; rfl)⟩

end Sys2Proof.Proofs

/-! PROOFS. The encoding (30_encoding.md). First the equations of the decoder, then what an answer of each part of it says
about the bytes, then the rows of the opcode table by the same bytes, then the statements. -/

namespace Sys2Proof

/-- The bytes begin with the encoding of this well-formed instruction, and these are the bytes after it. -/
def ReadsAs (bs : List Byte) (i : Instr) (rest : List Byte) : Prop := i.wellFormed = true ∧ bs = encode i ++ rest

/-! ### Decoding an encoding -/

/-- Byte 0 of MOV r32, imm32 as the encoder writes it. -/
theorem movRegImm_opcode_eq (rd : Reg) : (0x17 : BitVec 5) ++ rd.bits = BitVec.ofNat 8 (0xB8 + rd.index.val) := by
  cases rd <;> rfl

theorem decodeC1_shr (rm : Reg) (rest : List Byte) : decodeC1 (modRM 3 5 rm.bits :: rest) = decodeCount rm rest := by
  simp [decodeC1]

theorem decodeCount_of_shifts (rm : Reg) {imm : Byte} (rest : List Byte) (h : shiftsByCount imm = true) :
    decodeCount rm (imm :: rest) = .ok (.shrImm rm imm, rest) := if_pos h

/-- The decoder reads every encoding back. -/
theorem decode_encode {i : Instr} (rest : List Byte) (wf : i.wellFormed = true) :
    decode (encode i ++ rest) = .ok (i, rest) := by
  cases i with
  | cpuid => exact Machine.decode_cpuidBytes rest
  | movRegImm rd imm =>
    rw [encode, movRegImm_opcode_eq, List.cons_append, decode_movRegImm_opcode, decodeImm32_imm32Bytes]
  | movRegReg rm reg => exact decode89_register rm reg rest
  | movStore rm reg =>
    obtain ⟨hsp, hbp⟩ := not_or.mp ((Reg.canAddress_iff rm).mp wf)
    exact decode89_memory rm reg rest hsp hbp
  | movLoad reg rm =>
    obtain ⟨hsp, hbp⟩ := not_or.mp ((Reg.canAddress_iff rm).mp wf)
    exact decode8B_memory rm reg rest hsp hbp
  | movzx reg rm => exact decodeMovzx_lowByte rm reg rest ((Reg.hasLowByte_iff rm).mp wf)
  | andImm rm imm => exact (decode81_and rm _).trans (decodeImm32_imm32Bytes _ imm rest)
  | cmpImm rm imm => exact (decode81_cmp rm _).trans (decodeImm32_imm32Bytes _ imm rest)
  | testImm rm imm => exact (decodeF7_test rm _).trans (decodeImm32_imm32Bytes _ imm rest)
  | shrImm rm imm => exact (decodeC1_shr rm _).trans (decodeCount_of_shifts rm rest wf)
  | xorReg rm reg => exact decode31_register rm reg rest
  | jz rel => rfl
  | jnz rel => rfl
  | jb rel => rfl
  | jae rel => rfl
  | jmp rel => rfl

/-! ### What an answer of the decoder says about the bytes -/

section Answers
variable {bs rest : List Byte} {i : Instr}

/-- A ModRM byte is put together again from `mod` and the registers its fields name. -/
theorem modRM_registers {m : Byte} {x : BitVec 2} (h : modOf m = x) :
    modRM x (Reg.ofBits (regOf m)).bits (Reg.ofBits (rmOf m)).bits = m :=
  modRM_eq_of_fields h (Reg.bits_ofBits _).symm (Reg.bits_ofBits _).symm

/-- The same where `reg` is an opcode extension. -/
theorem modRM_extension {m : Byte} {x : BitVec 2} {y : BitVec 3} (hx : modOf m = x) (hy : regOf m = y) :
    modRM x y (Reg.ofBits (rmOf m)).bits = m :=
  modRM_eq_of_fields hx hy (Reg.bits_ofBits _).symm

theorem decode89_ok (h : decode89 bs = .ok (i, rest)) : ReadsAs (0x89 :: bs) i rest := by
  cases bs with
  | nil => cases h
  | cons m bs =>
    simp only [decode89] at h
    split_ifs at h with h3 h0
    · cases h; exact ⟨rfl, by rw [encode, modRM_registers h3]; rfl⟩
    · cases h; exact ⟨h0.2, by rw [encode, modRM_registers h0.1]; rfl⟩

theorem decode8B_ok (h : decode8B bs = .ok (i, rest)) : ReadsAs (0x8B :: bs) i rest := by
  cases bs with
  | nil => cases h
  | cons m bs =>
    simp only [decode8B] at h
    split_ifs at h with h0
    cases h; exact ⟨h0.2, by rw [encode, modRM_registers h0.1]; rfl⟩

theorem decode31_ok (h : decode31 bs = .ok (i, rest)) : ReadsAs (0x31 :: bs) i rest := by
  cases bs with
  | nil => cases h
  | cons m bs =>
    simp only [decode31] at h
    split_ifs at h with h3
    cases h; exact ⟨rfl, by rw [encode, modRM_registers h3]; rfl⟩

theorem decode81_ok (h : decode81 bs = .ok (i, rest)) : ReadsAs (0x81 :: bs) i rest := by
  cases bs with
  | nil => cases h
  | cons m bs =>
    simp only [decode81] at h
    split_ifs at h with h4 h7
    · obtain ⟨v, rfl, rfl⟩ := decodeImm32_ok h
      exact ⟨rfl, by rw [encode, modRM_extension h4.1 h4.2]; rfl⟩
    · obtain ⟨v, rfl, rfl⟩ := decodeImm32_ok h
      exact ⟨rfl, by rw [encode, modRM_extension h7.1 h7.2]; rfl⟩

theorem decodeF7_ok (h : decodeF7 bs = .ok (i, rest)) : ReadsAs (0xF7 :: bs) i rest := by
  cases bs with
  | nil => cases h
  | cons m bs =>
    simp only [decodeF7] at h
    split_ifs at h with h0
    obtain ⟨v, rfl, rfl⟩ := decodeImm32_ok h
    exact ⟨rfl, by rw [encode, modRM_extension h0.1 h0.2]; rfl⟩

theorem decodeC1_ok (h : decodeC1 bs = .ok (i, rest)) : ReadsAs (0xC1 :: bs) i rest := by
  cases bs with
  | nil => cases h
  | cons m bs =>
    simp only [decodeC1] at h
    split_ifs at h with h5
    obtain ⟨imm, shifts, rfl, rfl⟩ := decodeCount_ok h
    exact ⟨shifts, by rw [encode, modRM_extension h5.1 h5.2]; rfl⟩

theorem decodeMovzx_ok (h : decodeMovzx bs = .ok (i, rest)) : ReadsAs (0x0F :: 0xB6 :: bs) i rest := by
  cases bs with
  | nil => cases h
  | cons m bs =>
    simp only [decodeMovzx] at h
    split_ifs at h with h3
    cases h; exact ⟨h3.2, by rw [encode, modRM_registers h3.1]; rfl⟩

theorem decode0F_ok (h : decode0F bs = .ok (i, rest)) : ReadsAs (0x0F :: bs) i rest := by
  cases bs with
  | nil => cases h
  | cons b bs =>
    simp only [decode0F] at h
    split_ifs at h with hA2 hB6
    · cases h; subst hA2; exact ⟨rfl, rfl⟩
    · subst hB6; exact decodeMovzx_ok h

/-- The byte 0 of every row but MOV r32, imm32, which has eight (30_encoding.md R33). -/
def opcodeBytes : List Byte := [0x0F, 0x89, 0x8B, 0x31, 0x81, 0xF7, 0xC1, 0x72, 0x73, 0x74, 0x75, 0xEB]

/-- A byte 0 that starts no row is rejected, whatever follows, as one of 30_encoding.md R41 or as unknown. -/
theorem decode_of_starts_no_row {b : Byte} (hb : b ∉ opcodeBytes) (hB8 : b &&& 0xF8 ≠ 0xB8) (bs : List Byte) :
    decode (b :: bs) = if isPrefix b then .error (.prefixByte b) else .error (.opcode b) := by
  simp only [opcodeBytes, List.mem_cons, List.not_mem_nil, or_false, not_or] at hb
  simp only [decode, hb, hB8, if_false]

/-- A byte whose bits 7:3 are those of MOV r32, imm32 is its byte 0 for some register. -/
theorem exists_movRegImm_opcode {b : Byte} (h : b &&& 0xF8 = 0xB8) :
    ∃ rd : Reg, b = BitVec.ofNat 8 (0xB8 + rd.index.val) := by
  have fields : ∀ b : Byte, b &&& 0xF8 = 0xB8 → b = (0x17 : BitVec 5) ++ (Reg.ofBits (b.extractLsb' 0 3)).bits := by
    decide
  exact ⟨_, (fields b h).trans (movRegImm_opcode_eq _)⟩

/-- What decodes reads as the instruction decoded: each part of the decoder answers for its byte 0. -/
theorem decode_ok (h : decode bs = .ok (i, rest)) : ReadsAs bs i rest := by
  cases bs with
  | nil => cases h
  | cons b bs =>
    by_cases hb : b ∈ opcodeBytes
    · simp only [opcodeBytes, List.mem_cons, List.not_mem_nil, or_false] at hb
      obtain rfl | rfl | rfl | rfl | rfl | rfl | rfl | rfl | rfl | rfl | rfl | rfl := hb
      · exact decode0F_ok h
      · exact decode89_ok h
      · exact decode8B_ok h
      · exact decode31_ok h
      · exact decode81_ok h
      · exact decodeF7_ok h
      · exact decodeC1_ok h
      · obtain ⟨v, rfl, rfl⟩ := decodeRel8_ok (mk := .jb) h; exact ⟨rfl, rfl⟩
      · obtain ⟨v, rfl, rfl⟩ := decodeRel8_ok (mk := .jae) h; exact ⟨rfl, rfl⟩
      · obtain ⟨v, rfl, rfl⟩ := decodeRel8_ok (mk := .jz) h; exact ⟨rfl, rfl⟩
      · obtain ⟨v, rfl, rfl⟩ := decodeRel8_ok (mk := .jnz) h; exact ⟨rfl, rfl⟩
      · obtain ⟨v, rfl, rfl⟩ := decodeRel8_ok (mk := .jmp) h; exact ⟨rfl, rfl⟩
    · by_cases hB8 : b &&& 0xF8 = 0xB8
      · obtain ⟨rd, rfl⟩ := exists_movRegImm_opcode hB8
        rw [decode_movRegImm_opcode] at h
        obtain ⟨v, rfl, rfl⟩ := decodeImm32_ok h
        exact ⟨rfl, by rw [encode, movRegImm_opcode_eq]; rfl⟩
      · rw [decode_of_starts_no_row hb hB8] at h
        split at h <;> cases h

end Answers

/-- The decoder answers exactly where the bytes read as an instruction. -/
theorem decode_ok_iff {bs rest : List Byte} {i : Instr} : decode bs = .ok (i, rest) ↔ ReadsAs bs i rest := by
  refine ⟨decode_ok, ?_⟩
  rintro ⟨wf, rfl⟩
  exact decode_encode rest wf

/-! ### The rows of the opcode table -/

theorem opcodeRow_mem_opcodeTable (i : Instr) : opcodeRow i ∈ opcodeTable := by
  cases i <;> simp [opcodeTable, rowRepresentatives, opcodeRow]

/-- An encoding has the length of its row (30_encoding.md R33, last column). -/
theorem length_encode (i : Instr) : (encode i).length = (opcodeRow i).length := by cases i <;> rfl

theorem maskedMatch_nil (bs : List Byte) : maskedMatch [] [] bs = true := by cases bs <;> rfl

/-- One byte of a masked match. -/
theorem maskedMatch_cons (p m : Byte) (ps ms bs : List Byte) :
    maskedMatch (p :: ps) (m :: ms) bs = true ↔
      ∃ b rest, bs = b :: rest ∧ b &&& m = p ∧ maskedMatch ps ms rest = true := by
  cases bs <;> simp [maskedMatch]

theorem OpcodeRow.selects_iff (r : OpcodeRow) (bs : List Byte) :
    r.selects bs = true ↔
      maskedMatch r.pattern r.mask bs = true ∧ (∀ c ∈ r.constraints, c.holds bs = true) ∧ r.length ≤ bs.length := by
  simp [OpcodeRow.selects, and_assoc]

/-! The masks of the table, one lemma each: which field of the byte they fix. -/

theorem and_FF (b : Byte) : b &&& 0xFF = b := BitVec.and_allOnes
theorem and_C0_iff (m : Byte) (x : BitVec 2) : m &&& 0xC0 = modRM x 0 0 ↔ modOf m = x := by revert m x; decide
theorem and_F8_iff (m : Byte) (y : BitVec 3) : m &&& 0xF8 = modRM 3 y 0 ↔ modOf m = 3 ∧ regOf m = y := by
  revert m y; decide
theorem and_C4_iff (m : Byte) : m &&& 0xC4 = 0xC0 ↔ modOf m = 3 ∧ (Reg.ofBits (rmOf m)).hasLowByte = true := by
  revert m; decide

/-- The first two bytes of a form with a ModRM byte. -/
theorem maskedMatch_modRM (op : Byte) {q mask m : Byte} (rest : List Byte) (h : m &&& mask = q) :
    maskedMatch [op, q] [0xFF, mask] (op :: m :: rest) = true :=
  (maskedMatch_cons ..).mpr ⟨op, _, rfl, and_FF op, (maskedMatch_cons ..).mpr ⟨m, rest, rfl, h, maskedMatch_nil rest⟩⟩

/-- Every encoding matches the mask of its row. -/
theorem maskedMatch_encode {i : Instr} (rest : List Byte) (wf : i.wellFormed = true) :
    maskedMatch (opcodeRow i).pattern (opcodeRow i).mask (encode i ++ rest) = true := by
  have mod (x : BitVec 2) (reg rm : BitVec 3) : modRM x reg rm &&& 0xC0 = modRM x 0 0 :=
    (and_C0_iff _ x).mpr (modOf_modRM x reg rm)
  have ext (y rm : BitVec 3) : modRM 3 y rm &&& 0xF8 = modRM 3 y 0 :=
    (and_F8_iff _ y).mpr ⟨modOf_modRM 3 y rm, regOf_modRM 3 y rm⟩
  cases i with
  | movRegImm rd imm => cases rd <;> rfl
  | movRegReg rm reg => exact maskedMatch_modRM 0x89 rest (mod 3 _ _)
  | movStore rm reg => exact maskedMatch_modRM 0x89 rest (mod 0 _ _)
  | movLoad reg rm => exact maskedMatch_modRM 0x8B rest (mod 0 _ _)
  | xorReg rm reg => exact maskedMatch_modRM 0x31 rest (mod 3 _ _)
  | andImm rm imm => exact maskedMatch_modRM 0x81 _ (ext 4 _)
  | cmpImm rm imm => exact maskedMatch_modRM 0x81 _ (ext 7 _)
  | testImm rm imm => exact maskedMatch_modRM 0xF7 _ (ext 0 _)
  | shrImm rm imm => exact maskedMatch_modRM 0xC1 _ (ext 5 _)
  | movzx reg rm =>
    have low : modRM 3 reg.bits rm.bits &&& 0xC4 = 0xC0 :=
      (and_C4_iff _).mpr ⟨modOf_modRM .., by rw [rmOf_modRM, Reg.ofBits_bits]; exact wf⟩
    exact (maskedMatch_cons ..).mpr ⟨0x0F, _, rfl, rfl, maskedMatch_modRM 0xB6 rest low⟩
  | cpuid => rfl
  | jz rel => rfl
  | jnz rel => rfl
  | jb rel => rfl
  | jae rel => rfl
  | jmp rel => rfl

/-- The condition of the two memory forms is on the register `rm` names (30_encoding.md R38). -/
theorem rmAddresses_holds (op : Byte) (mod : BitVec 2) (reg rm : Reg) (rest : List Byte) :
    RowConstraint.rmAddresses.holds (op :: modRM mod reg.bits rm.bits :: rest) = rm.canAddress := by
  simp [RowConstraint.holds]

/-- Every encoding of a well-formed instruction meets the conditions beside the mask. -/
theorem constraints_encode {i : Instr} (rest : List Byte) (wf : i.wellFormed = true) :
    ∀ c ∈ (opcodeRow i).constraints, c.holds (encode i ++ rest) = true := by
  cases i with
  | movStore rm reg => exact List.forall_mem_singleton.mpr ((rmAddresses_holds 0x89 0 reg rm rest).trans wf)
  | movLoad reg rm => exact List.forall_mem_singleton.mpr ((rmAddresses_holds 0x8B 0 reg rm rest).trans wf)
  | shrImm rm imm => exact List.forall_mem_singleton.mpr wf
  | _ => exact List.forall_mem_nil _

/-- Every encoding is selected by the row of its instruction. -/
theorem selects_encode {i : Instr} (rest : List Byte) (wf : i.wellFormed = true) :
    (opcodeRow i).selects (encode i ++ rest) = true := by
  have long : (opcodeRow i).length ≤ (encode i ++ rest).length := by
    rw [← length_encode, List.length_append]; exact Nat.le_add_right _ _
  exact (OpcodeRow.selects_iff _ _).mpr ⟨maskedMatch_encode rest wf, constraints_encode rest wf, long⟩

/-! ### What a selected row says about the bytes -/

section MatchedMask
variable {op : Byte} {bs : List Byte}

/-- A matched mask whose first byte is fixed whole. -/
theorem exists_of_maskedMatch_opcode {ps ms : List Byte} (h : maskedMatch (op :: ps) (0xFF :: ms) bs = true) :
    ∃ rest, bs = op :: rest ∧ maskedMatch ps ms rest = true := by
  obtain ⟨b, rest, rfl, hb, h⟩ := (maskedMatch_cons ..).mp h
  rw [and_FF] at hb
  exact ⟨rest, by rw [hb], h⟩

/-- A matched mask of an opcode and a second byte. -/
theorem exists_of_maskedMatch_second {q mask : Byte} (h : maskedMatch [op, q] [0xFF, mask] bs = true) :
    ∃ m rest, bs = op :: m :: rest ∧ m &&& mask = q := by
  obtain ⟨tail, rfl, second⟩ := exists_of_maskedMatch_opcode h
  obtain ⟨m, rest, rfl, hm, -⟩ := (maskedMatch_cons ..).mp second
  exact ⟨m, rest, rfl, hm⟩

/-- A matched mask that fixes `mod`. -/
theorem exists_of_maskedMatch_mod (x : BitVec 2) (h : maskedMatch [op, modRM x 0 0] [0xFF, 0xC0] bs = true) :
    ∃ (reg rm : Reg) (rest : List Byte), bs = op :: modRM x reg.bits rm.bits :: rest := by
  obtain ⟨m, rest, rfl, hm⟩ := exists_of_maskedMatch_second h
  exact ⟨_, _, rest, by rw [modRM_registers ((and_C0_iff m x).mp hm)]⟩

/-- A matched mask that fixes `mod` and an opcode extension. -/
theorem exists_of_maskedMatch_extension (y : BitVec 3)
    (h : maskedMatch [op, modRM 3 y 0] [0xFF, 0xF8] bs = true) :
    ∃ (rm : Reg) (rest : List Byte), bs = op :: modRM 3 y rm.bits :: rest := by
  obtain ⟨m, rest, rfl, hm⟩ := exists_of_maskedMatch_second h
  obtain ⟨h3, hy⟩ := (and_F8_iff m y).mp hm
  exact ⟨_, rest, by rw [modRM_extension h3 hy]⟩

/-- Four bytes are those of an immediate. -/
theorem exists_imm32Bytes (h : 4 ≤ bs.length) : ∃ v rest, bs = imm32Bytes v ++ rest := by
  match bs, h with
  | b0 :: b1 :: b2 :: b3 :: rest, _ => exact ⟨le32 b0 b1 b2 b3, rest, by rw [imm32Bytes_le32]; rfl⟩

/-- A row of an opcode extension and an imm32. -/
theorem exists_imm32_of_maskedMatch (y : BitVec 3) (h : maskedMatch [op, modRM 3 y 0] [0xFF, 0xF8] bs = true)
    (hl : 6 ≤ bs.length) :
    ∃ (rm : Reg) (v : Half) (rest : List Byte), bs = op :: modRM 3 y rm.bits :: (imm32Bytes v ++ rest) := by
  obtain ⟨rm, rest, rfl⟩ := exists_of_maskedMatch_extension y h
  obtain ⟨v, rest, rfl⟩ := exists_imm32Bytes (Nat.le_of_add_le_add_right (b := 2) hl)
  exact ⟨rm, v, rest, rfl⟩

/-- A row of an opcode and a rel8. -/
theorem exists_rel8_of_maskedMatch (h : maskedMatch [op] [0xFF] bs = true) (hl : 2 ≤ bs.length) :
    ∃ rel rest, bs = op :: rel :: rest := by
  obtain ⟨tail, rfl, -⟩ := exists_of_maskedMatch_opcode h
  obtain ⟨rel, rest, rfl⟩ := List.exists_cons_of_length_pos (Nat.lt_of_succ_lt_succ hl)
  exact ⟨rel, rest, rfl⟩

/-- The bytes a row selects read as an instruction of that row. -/
theorem exists_readsAs_of_selects (i : Instr) (h : (opcodeRow i).selects bs = true) :
    ∃ j rest, ReadsAs bs j rest ∧ opcodeRow j = opcodeRow i := by
  obtain ⟨hm, hc, hl⟩ := (OpcodeRow.selects_iff _ _).mp h
  cases i with
  | cpuid =>
    obtain ⟨m, rest, rfl, hA2⟩ := exists_of_maskedMatch_second hm
    rw [and_FF] at hA2
    subst hA2
    exact ⟨.cpuid, rest, ⟨rfl, rfl⟩, rfl⟩
  | movRegImm =>
    obtain ⟨b, tail, rfl, hb, -⟩ := (maskedMatch_cons ..).mp hm
    obtain ⟨rd, rfl⟩ := exists_movRegImm_opcode hb
    obtain ⟨v, rest, rfl⟩ := exists_imm32Bytes (Nat.le_of_succ_le_succ hl)
    exact ⟨.movRegImm rd v, rest, ⟨rfl, by rw [encode, movRegImm_opcode_eq]; rfl⟩, rfl⟩
  | movRegReg =>
    obtain ⟨reg, rm, rest, rfl⟩ := exists_of_maskedMatch_mod 3 hm
    exact ⟨.movRegReg rm reg, rest, ⟨rfl, rfl⟩, rfl⟩
  | movStore =>
    obtain ⟨reg, rm, rest, rfl⟩ := exists_of_maskedMatch_mod 0 hm
    have address := hc .rmAddresses (List.mem_singleton.mpr rfl)
    rw [rmAddresses_holds] at address
    exact ⟨.movStore rm reg, rest, ⟨address, rfl⟩, rfl⟩
  | movLoad =>
    obtain ⟨reg, rm, rest, rfl⟩ := exists_of_maskedMatch_mod 0 hm
    have address := hc .rmAddresses (List.mem_singleton.mpr rfl)
    rw [rmAddresses_holds] at address
    exact ⟨.movLoad reg rm, rest, ⟨address, rfl⟩, rfl⟩
  | movzx =>
    obtain ⟨tail, rfl, after⟩ := exists_of_maskedMatch_opcode hm
    obtain ⟨m, rest, rfl, masked⟩ := exists_of_maskedMatch_second after
    obtain ⟨h3, low⟩ := (and_C4_iff m).mp masked
    exact ⟨.movzx _ _, rest, ⟨low, by rw [encode, modRM_registers h3]; rfl⟩, rfl⟩
  | andImm =>
    obtain ⟨rm, v, rest, rfl⟩ := exists_imm32_of_maskedMatch 4 hm hl
    exact ⟨.andImm rm v, rest, ⟨rfl, rfl⟩, rfl⟩
  | cmpImm =>
    obtain ⟨rm, v, rest, rfl⟩ := exists_imm32_of_maskedMatch 7 hm hl
    exact ⟨.cmpImm rm v, rest, ⟨rfl, rfl⟩, rfl⟩
  | testImm =>
    obtain ⟨rm, v, rest, rfl⟩ := exists_imm32_of_maskedMatch 0 hm hl
    exact ⟨.testImm rm v, rest, ⟨rfl, rfl⟩, rfl⟩
  | shrImm =>
    obtain ⟨rm, tail, rfl⟩ := exists_of_maskedMatch_extension 5 hm
    obtain ⟨imm, rest, rfl⟩ := List.exists_cons_of_length_pos (Nat.lt_of_add_lt_add_right (n := 2) hl)
    exact ⟨.shrImm rm imm, rest, ⟨hc .countNotZero (List.mem_singleton.mpr rfl), rfl⟩, rfl⟩
  | xorReg =>
    obtain ⟨reg, rm, rest, rfl⟩ := exists_of_maskedMatch_mod 3 hm
    exact ⟨.xorReg rm reg, rest, ⟨rfl, rfl⟩, rfl⟩
  | jz => obtain ⟨rel, rest, rfl⟩ := exists_rel8_of_maskedMatch hm hl; exact ⟨.jz rel, rest, ⟨rfl, rfl⟩, rfl⟩
  | jnz => obtain ⟨rel, rest, rfl⟩ := exists_rel8_of_maskedMatch hm hl; exact ⟨.jnz rel, rest, ⟨rfl, rfl⟩, rfl⟩
  | jb => obtain ⟨rel, rest, rfl⟩ := exists_rel8_of_maskedMatch hm hl; exact ⟨.jb rel, rest, ⟨rfl, rfl⟩, rfl⟩
  | jae => obtain ⟨rel, rest, rfl⟩ := exists_rel8_of_maskedMatch hm hl; exact ⟨.jae rel, rest, ⟨rfl, rfl⟩, rfl⟩
  | jmp => obtain ⟨rel, rest, rfl⟩ := exists_rel8_of_maskedMatch hm hl; exact ⟨.jmp rel, rest, ⟨rfl, rfl⟩, rfl⟩

end MatchedMask

/-- A row of the table selects exactly the bytes that decode to an instruction of it. -/
theorem selects_iff_decode {r : OpcodeRow} (hr : r ∈ opcodeTable) (bs : List Byte) :
    r.selects bs = true ↔ ∃ i rest, decode bs = .ok (i, rest) ∧ opcodeRow i = r := by
  obtain ⟨k, -, rfl⟩ := List.mem_map.mp hr
  constructor
  · intro h
    obtain ⟨j, rest, reads, row⟩ := exists_readsAs_of_selects k h
    exact ⟨j, rest, decode_ok_iff.mpr reads, row⟩
  · rintro ⟨i, rest, h, row⟩
    obtain ⟨wf, rfl⟩ := decode_ok_iff.mp h
    exact row ▸ selects_encode rest wf

/-! ### Byte 0 -/

/-- The bytes 30_encoding.md R41 refuses by value. -/
theorem isPrefix_iff (b : Byte) :
    isPrefix b = true ↔ b ∈ ([0x66, 0x67, 0xF0, 0xF2, 0xF3] : List Byte) ∨ (0x40 ≤ b.toNat ∧ b.toNat ≤ 0x4F) := by
  revert b; decide

/-- Byte 0 of MOV r32, imm32 as a range. -/
theorem and_F8_eq_B8_iff (b : Byte) : b &&& 0xF8 = 0xB8 ↔ 0xB8 ≤ b.toNat ∧ b.toNat ≤ 0xBF := by
  revert b; decide

/-- None of the bytes of 30_encoding.md R41 starts a row. -/
theorem starts_no_row_of_isPrefix {b : Byte} (h : isPrefix b = true) : b ∉ opcodeBytes ∧ b &&& 0xF8 ≠ 0xB8 := by
  revert b; decide

end Sys2Proof

namespace Sys2Proof.Proofs

open Sys2Proof.Machine

/-- Settles O2: `decode_encode`, case by case over the instructions. -/
theorem decodeOfEncodeIsTheInstruction : Obligations.DecodeOfEncodeIsTheInstruction :=
  fun _ rest wf => decode_encode rest wf

/-- Settles O3: `decode_ok`, case by case over byte 0. -/
theorem decodedBytesAreTheEncoding : Obligations.DecodedBytesAreTheEncoding :=
  fun _ _ _ h => decode_ok h

/-- Settles O4: bytes a row selects decode to an instruction of it, and bytes decode to one instruction only. -/
theorem atMostOneOpcodeRowMatches : Obligations.AtMostOneOpcodeRowMatches := by
  intro bs r q hr hq selr selq
  obtain ⟨i, rest, hi, rfl⟩ := (selects_iff_decode hr bs).mp selr
  obtain ⟨j, rest', hj, rfl⟩ := (selects_iff_decode hq bs).mp selq
  rw [hi] at hj
  cases hj
  rfl

/-- Settles O5: the row of a decoded instruction selects its encoding, and the converse is `selects_iff_decode`. -/
theorem decoderAgreesWithOpcodeTable : Obligations.DecoderAgreesWithOpcodeTable := by
  refine ⟨fun bs rest i h => ?_, fun bs r hr sel => (selects_iff_decode hr bs).mp sel⟩
  have row := opcodeRow_mem_opcodeTable i
  refine ⟨row, (selects_iff_decode row bs).mpr ⟨i, rest, h, rfl⟩, ?_⟩
  obtain ⟨-, rfl⟩ := decode_ok h
  rw [List.length_append, length_encode]

/-- Settles O1: each of the words is an encoding, but for the last, whose address register would be ESP. -/
theorem writtenOutBytesDecode : Obligations.WrittenOutBytesDecode :=
  ⟨decode_encode [] (i := .cpuid) rfl, decode_encode [] (i := .movRegImm .ecx 1) rfl,
    decode_encode [] (i := .movRegReg .eax .edx) rfl, decode_encode [] (i := .movStore .edi .ebx) rfl,
    decode_encode [] (i := .movLoad .edx .edi) rfl, decode_encode [] (i := .movzx .eax .ebx) rfl,
    decode_encode [] (i := .andImm .ebx 0x000700FF) rfl, decode_encode [] (i := .shrImm .eax 19) rfl,
    decode_encode [] (i := .jz 0x1B) rfl, decode89_noAddress .esp .eax [0x24] (.inl rfl)⟩

/-- Settles O6: a byte 0 that starts no row is rejected by whether 30_encoding.md R41 gives it a value. -/
theorem prefixBytesAreRefused : Obligations.PrefixBytesAreRefused := by
  refine ⟨fun b rest h => ?_, fun b rest hb hB8 hlist hrex => ?_⟩
  · have listed : isPrefix b = true := (isPrefix_iff b).mpr (by simpa [or_assoc] using h)
    obtain ⟨hb, hB8⟩ := starts_no_row_of_isPrefix listed
    rw [decode_of_starts_no_row hb hB8, if_pos listed]
  · have unlisted : ¬isPrefix b = true := fun h => ((isPrefix_iff b).mp h).elim hlist hrex
    rw [decode_of_starts_no_row hb (fun h => hB8 ((and_F8_eq_B8_iff b).mp h)), if_neg unlisted]

end Sys2Proof.Proofs

/-! PROOFS. The step (60_exceptions.md, 70_reset_and_hazards.md R118) and the frames over all instructions. First what an
instruction answers, then what a step adds around it, then the statements. -/

namespace Sys2Proof.Machine

/-! ### What an instruction answers -/

/-- Where a branch goes on, taken or not (42_helper_instructions.md R93). -/
def branchTarget (s : State) (rel : Byte) (taken : Bool) : Int :=
  if taken then s.rip.toNat + 2 + rel.toInt else s.rip.toNat + 2

/-- Where an instruction goes on, where it is not refused for its operands. -/
def target : Instr → State → Int
  | .jz rel, s => branchTarget s rel s.flags.ZF
  | .jnz rel, s => branchTarget s rel (!s.flags.ZF)
  | .jb rel, s => branchTarget s rel s.flags.CF
  | .jae rel, s => branchTarget s rel (!s.flags.CF)
  | .jmp rel, s => branchTarget s rel true
  | i, s => s.rip.toNat + instrLength i

/-- The refusal of an instruction for its operands: an access or a shift count that is not admitted. -/
def operandRefusal : Instr → State → Option Refusal
  | .movStore rm _, s =>
    if s.launch.admitted (readReg64 s rm) then none else some (.notAdmittedAccess (readReg64 s rm))
  | .movLoad _ rm, s =>
    if s.launch.admitted (readReg64 s rm) then none else some (.notAdmittedAccess (readReg64 s rm))
  | .shrImm _ imm, _ => if shiftCount imm = 0 then some (.notAdmittedCount imm) else none
  | _, _ => none

theorem branch_eq_goTo (s : State) (rel : Byte) (taken : Bool) :
    branch s rel taken = goTo s (branchTarget s rel taken) := by
  cases taken <;> rfl

section Answer
variable {i : Instr} {s t : State} {r : Refusal}

/-- An instruction is its effect and then its target, or the refusal of its operands. -/
theorem exec_eq (i : Instr) (s : State) :
    exec i s = (operandRefusal i s).elim (goTo (effect i s) (target i s)) .refused := by
  cases i with
  | movStore rm reg =>
    simp only [exec, execMovStore, operandRefusal]
    split <;> rfl
  | movLoad reg rm =>
    simp only [exec, execMovLoad, operandRefusal]
    split <;> rfl
  | shrImm rm imm =>
    simp only [exec, execShrImm, operandRefusal]
    split <;> rfl
  | jz rel => exact branch_eq_goTo s rel _
  | jnz rel => exact branch_eq_goTo s rel _
  | jb rel => exact branch_eq_goTo s rel _
  | jae rel => exact branch_eq_goTo s rel _
  | jmp rel => exact branch_eq_goTo s rel true
  | _ => rfl

/-- No instruction faults (60_exceptions.md R98). -/
theorem exec_ne_fault (i : Instr) (s : State) (f : Fault) : exec i s ≠ .fault f := by
  rw [exec_eq]
  cases operandRefusal i s with
  | none => exact goTo_fault
  | some r => exact nofun

/-- An instruction is refused for its operands, or for a target that is no 64-bit address. -/
theorem exec_refused (h : exec i s = .refused r) :
    operandRefusal i s = some r ∨
      ¬(0 ≤ target i s ∧ target i s < 2 ^ 64) ∧ r = .notAdmittedTarget (target i s) := by
  rw [exec_eq] at h
  cases hr : operandRefusal i s with
  | some q => rw [hr] at h; cases h; exact .inl rfl
  | none =>
    rw [hr] at h
    obtain ⟨range, hr⟩ := goTo_refused h
    exact .inr ⟨by omega, hr⟩

/-- An instruction goes past itself, unless it is a branch that is taken. -/
theorem target_cases (i : Instr) (s : State) :
    target i s = s.rip.toNat + instrLength i ∨
      ∃ rel, (i = .jz rel ∨ i = .jnz rel ∨ i = .jb rel ∨ i = .jae rel ∨ i = .jmp rel) ∧
        target i s = s.rip.toNat + 2 + rel.toInt := by
  have either (rel : Byte) (taken : Bool) :
      branchTarget s rel taken = s.rip.toNat + 2 ∨ branchTarget s rel taken = s.rip.toNat + 2 + rel.toInt := by
    cases taken
    · exact .inl rfl
    · exact .inr rfl
  cases i with
  | jz rel => exact (either rel _).imp id fun h => ⟨rel, by simp, h⟩
  | jnz rel => exact (either rel _).imp id fun h => ⟨rel, by simp, h⟩
  | jb rel => exact (either rel _).imp id fun h => ⟨rel, by simp, h⟩
  | jae rel => exact (either rel _).imp id fun h => ⟨rel, by simp, h⟩
  | jmp rel => exact .inr ⟨rel, by simp, rfl⟩
  | _ => exact .inl rfl

/-- The masked shift count is the count modulo 32 (42_helper_instructions.md R90). -/
theorem shiftCount_eq (imm : Byte) : shiftCount imm = imm.toNat % 32 := by revert imm; decide

/-- A well-formed instruction is refused for its operands only where it is a memory form and the access is not admitted. -/
theorem access_of_operandRefusal (wf : i.wellFormed = true) (h : operandRefusal i s = some r) :
    ∃ rm reg, (i = .movStore rm reg ∨ i = .movLoad reg rm) ∧ s.launch.admitted (readReg64 s rm) = false ∧
      r = .notAdmittedAccess (readReg64 s rm) := by
  cases i with
  | movStore rm reg =>
    obtain ⟨refused, eq⟩ := Option.ite_none_left_eq_some.mp h
    exact ⟨rm, reg, .inl rfl, Bool.eq_false_iff.mpr refused, (Option.some.inj eq).symm⟩
  | movLoad reg rm =>
    obtain ⟨refused, eq⟩ := Option.ite_none_left_eq_some.mp h
    exact ⟨rm, reg, .inr rfl, Bool.eq_false_iff.mpr refused, (Option.some.inj eq).symm⟩
  | shrImm rm imm =>
    obtain ⟨zero, -⟩ := Option.ite_none_right_eq_some.mp h
    exact absurd (shiftCount_eq imm ▸ zero) ((shiftsByCount_iff imm).mp wf)
  | _ => cases h

/-! ### Frames over all instructions -/

theorem keepsFixed_of_exec (h : exec i s = .next t) : keepsFixed s t := by
  obtain ⟨p, rfl⟩ := exec_next h
  exact effect_keepsFixed i s

theorem keepsRegsBut_of_exec (h : exec i s = .next t) : keepsRegsBut (destinations i) s t := by
  obtain ⟨p, rfl⟩ := exec_next h
  exact effect_keepsRegsBut i s

theorem mem_of_exec (hi : ∀ rm reg, i ≠ .movStore rm reg) (h : exec i s = .next t) : t.mem = s.mem := by
  obtain ⟨p, rfl⟩ := exec_next h
  exact effect_mem s hi

/-- The memory after a store (42_helper_instructions.md R84). -/
theorem mem_of_exec_movStore {rm reg : Reg} (h : exec (.movStore rm reg) s = .next t) :
    t.mem = write32 s.mem (readReg64 s rm).toNat (readReg32 s reg) := by
  obtain ⟨p, rfl⟩ := exec_next h
  rfl

/-- No instruction writes a register above number 7 (10_state.md R10). -/
theorem destinations_lt {n : Fin 16} (h : n ∈ destinations i) : n.val < 8 := by
  have all : ∀ n ∈ ([0, 1, 2, 3] : List (Fin 16)), n.val < 8 := by decide
  cases i with
  | cpuid => exact all n h
  | movRegImm rd imm => exact List.mem_singleton.mp h ▸ rd.index_lt
  | movRegReg rm reg => exact List.mem_singleton.mp h ▸ rm.index_lt
  | movLoad reg rm => exact List.mem_singleton.mp h ▸ reg.index_lt
  | movzx reg rm => exact List.mem_singleton.mp h ▸ reg.index_lt
  | andImm rm imm => exact List.mem_singleton.mp h ▸ rm.index_lt
  | shrImm rm imm => exact List.mem_singleton.mp h ▸ rm.index_lt
  | xorReg rm reg => exact List.mem_singleton.mp h ▸ rm.index_lt
  | _ => cases h

/-- A 32-bit value in a 64-bit register has a zero upper half. -/
theorem toNat_setWidth_lt (v : Half) : (v.setWidth 64).toNat < 2 ^ 32 := by
  rw [BitVec.toNat_setWidth_of_le (by omega)]
  exact v.isLt

/-- Every destination has a zero upper half after the instruction (10_state.md R10, D17). -/
theorem effect_destination_lt (s : State) {n : Fin 16} (h : n ∈ destinations i) :
    ((effect i s).x.get n).toNat < 2 ^ 32 := by
  cases i with
  | cpuid =>
    simp only [destinations, List.mem_cons, List.not_mem_nil, or_false] at h
    obtain rfl | rfl | rfl | rfl := h
    · exact cpuidEffect_get_eax Config.draw s ▸ toNat_setWidth_lt _
    · exact cpuidEffect_get_ecx Config.draw s ▸ toNat_setWidth_lt _
    · exact cpuidEffect_get_edx Config.draw s ▸ toNat_setWidth_lt _
    · exact cpuidEffect_get_ebx Config.draw s ▸ toNat_setWidth_lt _
  | movRegImm => exact List.mem_singleton.mp h ▸ writeReg32_get_lt s _ _
  | movRegReg => exact List.mem_singleton.mp h ▸ writeReg32_get_lt s _ _
  | movLoad => exact List.mem_singleton.mp h ▸ writeReg32_get_lt s _ _
  | movzx => exact List.mem_singleton.mp h ▸ writeReg32_get_lt s _ _
  | andImm => exact List.mem_singleton.mp h ▸ writeReg32_get_lt s _ _
  | shrImm => exact List.mem_singleton.mp h ▸ writeReg32_get_lt s _ _
  | xorReg => exact List.mem_singleton.mp h ▸ writeReg32_get_lt s _ _
  | _ => cases h

/-- Every instruction keeps the canonical form of memory: the store is admitted, so it does not pass the top. -/
theorem wf_of_exec (h : exec i s = .next t) (wf : Memory.wf s.mem = true) : Memory.wf t.mem = true := by
  by_cases store : ∃ rm reg, i = .movStore rm reg
  · obtain ⟨rm, reg, rfl⟩ := store
    obtain ⟨-, top⟩ := (admitted_iff _ _).mp (execMovStore_admitted h)
    rw [mem_of_exec_movStore h]
    exact wf_write32 _ wf top
  · rw [mem_of_exec (fun rm reg e => store ⟨rm, reg, e⟩) h]
    exact wf

end Answer

/-- Each of the four bytes of an admitted access is data (20_memory.md R32). -/
theorem inData_of_admitted {l : Launch} {a : Word} {b : Nat} (h : l.admitted a = true) (low : a.toNat ≤ b)
    (high : b ≤ a.toNat + 3) : l.inData b = true := by
  obtain ⟨⟨h0, h1, h2, h3⟩, -⟩ := (admitted_iff l a).mp h
  obtain rfl | rfl | rfl | rfl : b = a.toNat ∨ b = a.toNat + 1 ∨ b = a.toNat + 2 ∨ b = a.toNat + 3 := by omega
  all_goals assumption

/-! ### The configuration -/

section WithCfg
variable {i : Instr} (s : State) (c : Cfg)

theorem effect_withCfg (h : i ≠ .cpuid) : effect i (s.withCfg c) = (effect i s).withCfg c := by
  cases i with
  | cpuid => exact absurd rfl h
  | _ => rfl

theorem target_withCfg (i : Instr) : target i (s.withCfg c) = target i s := by cases i <;> rfl

theorem operandRefusal_withCfg (i : Instr) : operandRefusal i (s.withCfg c) = operandRefusal i s := by cases i <;> rfl

/-- An outcome with the configuration of its next state replaced. -/
def withCfgOutcome : Result → Result
  | .next t => .next (t.withCfg c)
  | .fault f => .fault f
  | .refused r => .refused r

theorem goTo_withCfg (n : Int) : goTo (s.withCfg c) n = withCfgOutcome c (goTo s n) := by
  unfold goTo
  split <;> rfl

/-- An instruction other than CPUID gives the same outcome under another configuration (42_helper_instructions.md R81). -/
theorem exec_withCfg (h : i ≠ .cpuid) : exec i (s.withCfg c) = withCfgOutcome c (exec i s) := by
  rw [exec_eq, exec_eq, operandRefusal_withCfg, effect_withCfg s c h, target_withCfg, goTo_withCfg]
  cases operandRefusal i s <;> rfl

end WithCfg

/-! ### What a step adds -/

section AdmitNext
variable {t : State} {r : Refusal}

theorem admitNext_of_atEnd (h : t.atEnd = true) : admitNext (.next t) = .next t := if_pos h

theorem admitNext_of_fetch {j : Instr} (h : fetchInstr t = .ok j) : admitNext (.next t) = .next t := by
  simp only [admitNext, h]
  split <;> rfl

theorem admitNext_of_fetch_error (e : t.atEnd = false) (h : fetchInstr t = .error r) :
    admitNext (.next t) = .refused r := by
  simp [admitNext, h, e]

/-- A step ends in a refusal because the instruction did, or because of what stands at the next `rip`. -/
theorem admitNext_refused {o : Result} (h : admitNext o = .refused r) :
    o = .refused r ∨ ∃ t, o = .next t ∧ t.atEnd = false ∧ fetchInstr t = .error r := by
  cases o with
  | fault f => cases h
  | refused q => exact .inl h
  | next t =>
    cases e : t.atEnd with
    | true => rw [admitNext_of_atEnd e] at h; cases h
    | false =>
      cases f : fetchInstr t with
      | ok j => rw [admitNext_of_fetch f] at h; cases h
      | error q =>
        rw [admitNext_of_fetch_error e f] at h
        cases h
        exact .inr ⟨t, rfl, e, f⟩

/-- Admitting the next fetch raises no fault of its own. -/
theorem eq_fault_of_admitNext {o : Result} {f : Fault} (h : admitNext o = .fault f) : o = .fault f := by
  cases o with
  | fault g => exact h
  | refused q => cases h
  | next t =>
    cases e : t.atEnd with
    | true => rw [admitNext_of_atEnd e] at h; cases h
    | false =>
      cases g : fetchInstr t with
      | ok j => rw [admitNext_of_fetch g] at h; cases h
      | error q => rw [admitNext_of_fetch_error e g] at h; cases h

end AdmitNext

section Step
variable {s t : State} {i : Instr} {r : Refusal} {bs rest : List Byte}

theorem step_of_atEnd (h : s.atEnd = true) : step s = .fault .runEnded := if_pos h

theorem step_of_fetch (e : s.atEnd = false) (h : fetchInstr s = .ok i) : step s = admitNext (exec i s) := by
  simp [step, e, h]

theorem step_of_fetch_error (e : s.atEnd = false) (h : fetchInstr s = .error r) : step s = .refused r := by
  simp [step, e, h]

/-- Where the bytes at `rip` decode, the step is the instruction and the admission of the next fetch. -/
theorem step_of_decode (ht : s.launch.textFrom s.rip.toNat = some bs) (h : decode bs = .ok (i, rest)) :
    step s = admitNext (exec i s) :=
  step_of_fetch (not_atEnd_of_textFrom ht) (fetchInstr_ok.mpr ⟨bs, rest, ht, h⟩)

theorem fetchInstr_of_outside (h : s.launch.textFrom s.rip.toNat = none) :
    fetchInstr s = .error (.notAdmittedBytes [] s.rip .outsideText) := by
  simp [fetchInstr, h, fetchRefusal]

theorem fetchInstr_of_decode_error {why : Reject} (ht : s.launch.textFrom s.rip.toNat = some bs)
    (h : decode bs = .error why) : fetchInstr s = .error (fetchRefusal bs s.rip why) := by
  simp [fetchInstr, ht, h]

/-- A step stops as ended at END alone: no instruction faults. -/
theorem step_fault_iff : step s = .fault .runEnded ↔ s.atEnd = true := by
  refine ⟨fun h => ?_, step_of_atEnd⟩
  cases e : s.atEnd with
  | true => rfl
  | false =>
    cases f : fetchInstr s with
    | error r => rw [step_of_fetch_error e f] at h; cases h
    | ok i =>
      rw [step_of_fetch e f] at h
      exact absurd (eq_fault_of_admitNext h) (exec_ne_fault i s _)

/-- An instruction that is fetched is well formed and ends in the text (70_reset_and_hazards.md R118). -/
theorem fetchInstr_bounds (h : fetchInstr s = .ok i) :
    i.wellFormed = true ∧ s.rip.toNat + instrLength i ≤ s.launch.base.toNat + s.launch.text.length := by
  obtain ⟨bs, rest, ht, hd⟩ := fetchInstr_ok.mp h
  obtain ⟨wf, rfl⟩ := decode_ok hd
  obtain ⟨inText, drop⟩ := textFrom_eq_some.mp ht
  obtain ⟨low, high⟩ := (Launch.inText_iff _ _).mp inText
  have lengths := congrArg List.length drop
  have encoded : (encode i).length = instrLength i := by cases i <;> rfl
  rw [List.length_append, List.length_drop, encoded] at lengths
  exact ⟨wf, by omega⟩

/-- Where a run may stand and a step is refused, an instruction is fetched. -/
theorem fetchInstr_of_step_refused (inv : s.Inv) (h : step s = .refused r) :
    ∃ i, fetchInstr s = .ok i ∧
      (exec i s = .refused r ∨ ∃ t, exec i s = .next t ∧ t.atEnd = false ∧ fetchInstr t = .error r) := by
  obtain ⟨-, -, hrip⟩ := inv
  cases e : s.atEnd with
  | true => rw [step_of_atEnd e] at h; cases h
  | false =>
    obtain atEnd | ⟨i, f⟩ := (State.ripOk_iff s).mp hrip
    · rw [e] at atEnd; cases atEnd
    · exact ⟨i, f, admitNext_refused (step_of_fetch e f ▸ h)⟩

end Step

end Sys2Proof.Machine

namespace Sys2Proof.Proofs

open Sys2Proof.Machine

/-! ### The step -/

/-- Settles O10: the launch is fixed, the one write to memory is admitted, and the step itself admits the next `rip`. -/
theorem everyStepKeepsTheMachineInvariant : Obligations.EveryStepKeepsTheMachineInvariant := by
  rintro s t ⟨launchOk, wf, -⟩ h
  obtain ⟨-, ⟨i, -, hx⟩, next⟩ := step_next h
  obtain ⟨launch, -, -⟩ := keepsFixed_of_exec hx
  exact ⟨launch ▸ launchOk, wf_of_exec hx wf, (State.ripOk_iff t).mpr next⟩

/-- Settles O7: each clause is one way `admitNext` can answer. -/
theorem stepRunsTheDecodedInstruction : Obligations.StepRunsTheDecodedInstruction := by
  intro s bs rest i ht hd
  rw [step_of_decode ht hd]
  refine ⟨fun r hx => ?_, fun t hx e => ?_, fun t j hx f => ?_, fun t r hx e f => ?_⟩ <;> rw [hx]
  · rfl
  · exact admitNext_of_atEnd e
  · exact admitNext_of_fetch f
  · exact admitNext_of_fetch_error e f

/-- Settles O8: the model's one fault is raised before any instruction is fetched. -/
theorem nothingFaultsButTheEndOfTheRun : Obligations.NothingFaultsButTheEndOfTheRun :=
  ⟨exec_ne_fault, fun s => step_fault_iff.trans (State.atEnd_iff s)⟩

/-- Settles O9: the refusal of a fetch, by where it fails. -/
theorem unadmittedFetchIsRefused : Obligations.UnadmittedFetchIsRefused := by
  intro s away
  have e : s.atEnd = false := Bool.eq_false_iff.mpr fun h => away ((State.atEnd_iff s).mp h)
  refine ⟨fun ht => ?_, fun bs imm ht hd => ?_, fun bs why ht hd hwhy => ?_⟩
  · exact step_of_fetch_error e (fetchInstr_of_outside ht)
  · exact step_of_fetch_error e (fetchInstr_of_decode_error ht hd)
  · rw [step_of_fetch_error e (fetchInstr_of_decode_error ht hd), fetchRefusal_of_not_count hwhy, maxInstrLength]

/-- Settles O11: with no text placed, BASE is END. -/
theorem resetMeetsTheMachineInvariant : Obligations.ResetMeetsTheMachineInvariant :=
  ⟨rfl, wf_reset, (State.ripOk_iff _).mpr (.inl ((State.atEnd_iff _).mpr rfl))⟩

/-- Settles O12: the three launch values of reset. -/
theorem resetStartsAtTheEntryAddress : Obligations.ResetStartsAtTheEntryAddress :=
  ⟨reset_rip, reset_text, fun a => by rw [reset_mem, readByte]⟩

/-- Settles O13: the frame of the instruction that ran, whose destinations are registers 0 to 7. -/
theorem noStepChangesWhatTheLaunchFixes : Obligations.NoStepChangesWhatTheLaunchFixes := by
  intro s t h
  obtain ⟨-, ⟨i, -, hx⟩, -⟩ := step_next h
  obtain ⟨launch, vec, opmask⟩ := keepsFixed_of_exec hx
  refine ⟨launch, vec, opmask, fun n high => keepsRegsBut_of_exec hx n fun dest => ?_⟩
  exact absurd (destinations_lt dest) (Nat.not_lt.mpr high)

/-- Settles O14: a fetched instruction ends in the text, so going past it is never refused, and it is well formed, so its
shift count is none that is refused. -/
theorem onlyTheListedCausesRefuseAStep : Obligations.OnlyTheListedCausesRefuseAStep := by
  intro s r inv h
  obtain ⟨i, f, hx | next⟩ := fetchInstr_of_step_refused inv h
  · refine ⟨i, f, ?_⟩
    obtain ⟨wf, fits⟩ := fetchInstr_bounds f
    have top := (Launch.ok_iff _).mp inv.1
    obtain operand | ⟨range, rfl⟩ := exec_refused hx
    · exact .inl (access_of_operandRefusal wf operand)
    · obtain past | ⟨rel, branch, taken⟩ := target_cases i s
      · rw [past] at range
        omega
      · rw [taken] at range ⊢
        exact .inr (.inl ⟨rel, branch, range, rfl⟩)
  · exact ⟨i, f, .inr (.inr next)⟩

/-! ### Frames over all instructions -/

/-- Settles O15: the frame and the destinations of an effect, whatever `rip` is set to. -/
theorem onlyDestinationsChangeAndTheirUpperHalfIsZero : Obligations.OnlyDestinationsChangeAndTheirUpperHalfIsZero := by
  intro i s t h
  refine ⟨keepsRegsBut_of_exec h, fun n dest => ?_⟩
  obtain ⟨p, rfl⟩ := exec_next h
  exact effect_destination_lt s dest

/-- Settles O16: the flags of an effect, whatever `rip` is set to. -/
theorem onlyFiveInstructionsWriteFlags : Obligations.OnlyFiveInstructionsWriteFlags := by
  intro i s t hi h
  obtain ⟨p, rfl⟩ := exec_next h
  exact effect_flags s hi

/-- Settles O17: memory as a whole is unchanged, so every byte of it is. -/
theorem onlyTheStoreChangesMemory : Obligations.OnlyTheStoreChangesMemory :=
  fun _ _ _ hi h a => congrArg (readByte · a) (mem_of_exec hi h)

/-- Settles O18: the byte is one of the four of a store, and each of the four is admitted. -/
theorem everyChangedByteIsAdmittedData : Obligations.EveryChangedByteIsAdmittedData := by
  intro i s t a h changed
  by_cases store : ∃ rm reg, i = .movStore rm reg
  · obtain ⟨rm, reg, rfl⟩ := store
    rw [mem_of_exec_movStore h] at changed
    have near : ¬(a < (readReg64 s rm).toNat ∨ (readReg64 s rm).toNat + 3 < a) :=
      fun out => changed (readByte_write32_other _ out)
    have data := inData_of_admitted (b := a) (execMovStore_admitted h) (by omega) (by omega)
    obtain ⟨region, outside⟩ := (Launch.inData_iff _ _).mp data
    exact ⟨region, fun inside => outside ((Launch.inText_iff _ _).mpr inside)⟩
  · rw [mem_of_exec (fun rm reg e => store ⟨rm, reg, e⟩) h] at changed
    exact absurd rfl changed

/-- Settles O19: `exec_withCfg`, for a next state and for a refusal. -/
theorem helpersDoNotReadTheConfiguration : Obligations.HelpersDoNotReadTheConfiguration := by
  intro i s c hi
  rw [exec_withCfg s c hi]
  exact ⟨fun t h => by rw [h]; rfl, fun r h => by rw [h]; rfl⟩

end Sys2Proof.Proofs

/-! PROOFS. The CPUID leaf space (40_cpuid_enumeration.md) and what the enumeration means (41_avx10_versioning.md). First
the rows of the table as equations and the sources of free values that give a wanted answer, then the detection function
and well-formed configurations, then the statements. -/

namespace Sys2Proof.Machine

/-! ### The rows of the table -/

section Table
variable (draw : (w : Nat) → Nat → BitVec w) {c : Cfg} {leaf sub : Half} (k : Nat)

/-- (07H, 01H): all but EDX is undefined (40_cpuid_enumeration.md R44). -/
theorem cpuidTable_feature (c : Cfg) :
    cpuidTable draw c 7 1 k =
      { undefinedAnswer draw k with edx := featureEdx c (draw 12 (k + 3)) (draw 19 (k + 4)) } := if_pos ⟨rfl, rfl⟩

/-- (24H, 00H) with AVX10 (40_cpuid_enumeration.md R46 to R53). -/
theorem cpuidTable_leaf24 (h : c.avx10Supported = true) :
    cpuidTable draw c 0x24 0 k =
      { eax := c.avx10MaxSubleaf, ebx := leaf24Ebx c (draw 13 k) (draw 8 (k + 1)), ecx := draw 32 (k + 2),
        edx := draw 32 (k + 3) } := by
  simp [cpuidTable, h]

/-- Leaf 24H without AVX10, and its other sub-leaves (40_cpuid_enumeration.md R45, R54). -/
theorem cpuidTable_leaf24_undefined (h : c.avx10Supported = false ∨ sub ≠ 0) :
    cpuidTable draw c 0x24 sub k = undefinedAnswer draw k := by
  obtain absent | other := h
  · simp [cpuidTable, absent]
  · have h7 : ¬((0x24 : Half) = 7 ∧ sub = 1) := fun h => absurd h.1 (by decide)
    have h0 : ¬((0x24 : Half) = 0x24 ∧ sub = 0) := fun h => other h.2
    rw [cpuidTable, if_neg h7, if_neg h0, if_pos rfl, ite_self]

theorem cpuidTable_other (h24 : leaf ≠ 0x24) (h7 : ¬(leaf = 7 ∧ sub = 1)) :
    cpuidTable draw c leaf sub k = otherLeaves draw c leaf sub k := by
  rw [cpuidTable, if_neg h7, if_neg fun h => h24 h.1, if_neg fun h => h24 h.1, if_neg h24]

/-- Where the refinements of 40_cpuid_enumeration.md R58 are not taken, or at another query, nothing is defined. -/
theorem otherLeaves_undefined (h : c.exposeRangeLeaves = false ∨ (leaf ≠ 0 ∧ ¬(leaf = 7 ∧ sub = 0))) :
    otherLeaves draw c leaf sub k = undefinedAnswer draw k := by
  obtain hidden | ⟨h0, h7⟩ := h
  · simp [otherLeaves, hidden]
  · rw [otherLeaves, if_neg fun h => h0 h.2, if_neg fun h => h7 h.2]

end Table

/-! ### Sources of free values -/

/-- The source that gives these values at the indices from `k` on, cut or extended to the width that is asked for. -/
def drawsFrom (k : Nat) (vs : List Half) (w j : Nat) : BitVec w := (vs.getD (j - k) 0).setWidth w

theorem drawsFrom_add (k n : Nat) (vs : List Half) (w : Nat) :
    drawsFrom k vs w (k + n) = (vs.getD n 0).setWidth w := by rw [drawsFrom, Nat.add_sub_cancel_left]

theorem drawsFrom_start (k : Nat) (vs : List Half) (w : Nat) : drawsFrom k vs w k = (vs.getD 0 0).setWidth w :=
  drawsFrom_add k 0 vs w

/-- An undefined answer takes every value. -/
theorem exists_undefinedAnswer (k : Nat) (v : CpuidAnswer) : ∃ draw, undefinedAnswer draw k = v := by
  refine ⟨drawsFrom k [v.eax, v.ebx, v.ecx, v.edx], ?_⟩
  simp [undefinedAnswer, drawsFrom_add, drawsFrom_start]

/-- EDX of (07H, 01H) put together again from bit 19 and the two fields around it. -/
theorem featureEdx_fields {c : Cfg} {v : Half} (h : v.getLsbD 19 = c.avx10Supported) :
    featureEdx c (v.extractLsb' 20 12) (v.extractLsb' 0 19) = v := by
  apply BitVec.eq_of_getLsbD_eq
  intro i hi
  simp only [featureEdx, ← h, BitVec.getLsbD_append, BitVec.getLsbD_extractLsb']
  interval_cases i <;> simp

/-- EDX of (07H, 01H) masked to its defined bit does not depend on the rest (40_cpuid_enumeration.md R59). -/
theorem featureEdx_masked (c : Cfg) (hi : BitVec 12) (lo : BitVec 19) :
    featureEdx c hi lo &&& 0x00080000 = featureEdx c 0 0 := by
  apply BitVec.eq_of_getLsbD_eq
  intro i h
  simp only [featureEdx, BitVec.getLsbD_and, BitVec.getLsbD_append]
  interval_cases i <;> simp

/-! ### Two executions of CPUID -/

section Constant
variable {s s' : State} (h : exec .cpuid s = .next s')
include h

/-- EAX and the defined fields of EBX after the query (24H, 00H): the configuration gives them. -/
theorem leaf24_of_exec_cpuid (hc : s.launch.cfg.avx10Supported = true) (leaf : readReg32 s .eax = 0x24)
    (sub : readReg32 s .ecx = 0) :
    s'.x.get 0 = s.launch.cfg.avx10MaxSubleaf.setWidth 64 ∧
      s'.x.get 3 &&& 0x000700FF = (leaf24Ebx s.launch.cfg 0 0).setWidth 64 := by
  obtain ⟨p, rfl⟩ := exec_next h
  have answer := cpuidTable_leaf24 Config.draw s.draws hc
  have eax := cpuidEffect_get_eax Config.draw s
  have ebx := cpuidEffect_get_ebx Config.draw s
  rw [cpuidAnswerAt, leaf, sub, answer] at eax ebx
  refine ⟨eax, ?_⟩
  dsimp only [effect]
  rw [ebx, ← leaf24Ebx_masked s.launch.cfg, BitVec.setWidth_and]
  rfl

/-- The defined bit of EDX after the query (07H, 01H). -/
theorem feature_of_exec_cpuid (leaf : readReg32 s .eax = 7) (sub : readReg32 s .ecx = 1) :
    s'.x.get 2 &&& 0x00080000 = (featureEdx s.launch.cfg 0 0).setWidth 64 := by
  obtain ⟨p, rfl⟩ := exec_next h
  have edx := cpuidEffect_get_edx Config.draw s
  rw [cpuidAnswerAt, leaf, sub, cpuidTable_feature] at edx
  dsimp only [effect]
  rw [edx, ← featureEdx_masked s.launch.cfg, BitVec.setWidth_and]
  rfl

end Constant

/-! ### Detection -/

theorem meetsTarget_iff (c : Cfg) (T : Nat) (L : VecLen) :
    meetsTarget c T L = true ↔ c.avx10Supported = true ∧ T ≤ c.avx10Version.toNat ∧ L.bits ≤ maxVL c := by
  rw [meetsTarget, Bool.and_eq_true, Bool.and_eq_true, decide_eq_true_iff, supportsLength_iff, and_assoc]

/-- The detection function reads the fields of the configuration through CPUID (41_avx10_versioning.md R80). -/
theorem hasAvx10_eq_meetsTarget (draw : (w : Nat) → Nat → BitVec w) (s : State) (T : Nat) (L : VecLen) :
    hasAvx10 draw s T L = meetsTarget s.launch.cfg T L := by
  obtain ⟨edx, -⟩ := readReg32_queryCpuid draw s 7 1
  obtain ⟨-, ebx⟩ := readReg32_queryCpuid draw (queryCpuid draw s 7 1) 0x24 0
  rw [cpuidTable_feature] at edx
  rw [queryCpuid_launch] at ebx
  simp only [hasAvx10, edx, ebx, featureEdx_bit19]
  cases hc : s.launch.cfg.avx10Supported with
  | false => simp [meetsTarget, hc]
  | true =>
    rw [cpuidTable_leaf24 _ _ hc]
    simp only [leaf24Ebx_version, leaf24Ebx_bit16, leaf24Ebx_bit17, leaf24Ebx_bit18, if_true]
    by_cases early : s.launch.cfg.avx10Version.toNat < T
    · simp [meetsTarget, early]
    · rw [if_neg early, meetsTarget, hc, decide_eq_true (Nat.le_of_not_lt early)]
      rfl

/-- The three-field check as a proposition (41_avx10_versioning.md R80). -/
theorem hasAvx10_iff (draw : (w : Nat) → Nat → BitVec w) (s : State) (T : Nat) (L : VecLen) :
    hasAvx10 draw s T L = true ↔
      s.launch.cfg.avx10Supported = true ∧ T ≤ s.launch.cfg.avx10Version.toNat ∧ L.bits ≤ maxVL s.launch.cfg := by
  rw [hasAvx10_eq_meetsTarget, meetsTarget_iff]

/-- The EVEX instructions of a flag: AVX10, the flag of its own where it has one, and the length
(41_avx10_versioning.md R72, R73). -/
theorem isaUsable_iff (c : Cfg) (f : FeatureFlag) (L : VecLen) :
    isaUsable c f L = true ↔ c.avx10Supported = true ∧ ownFlagSet c f = true ∧ L.bits ≤ maxVL c := by
  rw [isaUsable, Bool.and_eq_true, Bool.and_eq_true, supportsLength_iff, and_assoc]

/-! ### Well-formed configurations -/

section WellFormed
variable {c : Cfg}

/-- What 40_cpuid_enumeration.md R60 asks of the enumerated fields where AVX10 is supported. -/
theorem cfgWellFormed_avx10 (wf : cfgWellFormed c = true) (h : c.avx10Supported = true) :
    1 ≤ c.avx10Version.toNat ∧ c.vl128 = true ∧ c.vl256 = true ∧ (c.vl512 = true → c.isPcore = true) := by
  simp only [cfgWellFormed, h, Bool.and_eq_true, Bool.or_eq_true, Bool.not_true, Bool.true_and, decide_eq_true_eq,
    Bool.false_or, Bool.not_eq_true'] at wf
  obtain ⟨⟨⟨⟨⟨⟨version, -⟩, vl128⟩, vl256⟩, -⟩, pcore⟩, -⟩ := wf
  refine ⟨version, vl128.resolve_left (by simp [vl256]), vl256, fun vl512 => pcore.resolve_left (by simp [vl512])⟩

/-- The lengths of a well-formed configuration with AVX10: 256 bits, or 512 with `VL512` (41_avx10_versioning.md R67). -/
theorem maxVL_of_vl256 (h : c.vl256 = true) : maxVL c = if c.vl512 then 512 else 256 := by
  simp [maxVL, maxVlOf, h]

/-- On a well-formed configuration, version 1 is met wherever AVX10 is, so the check is one of the flag and the length. -/
theorem hasIsa_one_eq_isaUsable (draw : (w : Nat) → Nat → BitVec w) (s : State) (f : FeatureFlag) (L : VecLen)
    (wf : cfgWellFormed s.launch.cfg = true) : hasIsa draw s f 1 L = isaUsable s.launch.cfg f L := by
  rw [Bool.eq_iff_iff, isaUsable_iff, hasIsa, Bool.and_eq_true, hasAvx10_iff]
  constructor
  · rintro ⟨⟨hc, -, hL⟩, flag⟩
    exact ⟨hc, flag, hL⟩
  · rintro ⟨hc, flag, hL⟩
    obtain ⟨version, -⟩ := cfgWellFormed_avx10 wf hc
    exact ⟨⟨hc, version, hL⟩, flag⟩

/-- The guest's configuration keeps every conjunct of 40_cpuid_enumeration.md R60: they ask nothing of `VL512 = 0`. -/
theorem cfgWellFormed_guest256 (wf : cfgWellFormed c = true) : cfgWellFormed (guest256 c) = true := by
  simp only [cfgWellFormed, guest256, Bool.and_eq_true, Bool.and_false, Bool.not_false, Bool.true_or,
    Bool.or_true] at wf ⊢
  obtain ⟨⟨⟨⟨⟨⟨version, -⟩, vl128⟩, vl256⟩, avx⟩, -⟩, legacy⟩ := wf
  exact ⟨⟨⟨⟨⟨⟨version, trivial⟩, vl128⟩, vl256⟩, avx⟩, trivial⟩, legacy⟩

end WellFormed

theorem VecLen.bits_le_256_iff (L : VecLen) : L.bits ≤ 256 ↔ L ≠ .v512 := by cases L <;> decide

end Sys2Proof.Machine

namespace Sys2Proof.Proofs

open Sys2Proof.Machine

/-! ### CPUID -/

/-- Settles O21: the two defined rows of the table, and each field at its bits. -/
theorem enumeratedFieldsStandAtTheirBits : Obligations.EnumeratedFieldsStandAtTheirBits := by
  intro draw c k
  refine ⟨?_, fun hc => ?_⟩
  · rw [cpuidTable_feature]
    exact featureEdx_bit19 c _ _
  · rw [cpuidTable_leaf24 draw k hc]
    exact ⟨rfl, leaf24Ebx_version c _ _, leaf24Ebx_bit16 c _ _, leaf24Ebx_bit17 c _ _, leaf24Ebx_bit18 c _ _⟩

/-- Settles O22: masked, EBX has its reserved fields zero, and is then a number. -/
theorem referenceConfigurationsEnumerateTheirMaskedEbx :
    Obligations.ReferenceConfigurationsEnumerateTheirMaskedEbx := by
  intro hi lo
  simp only [leaf24Ebx_masked]
  decide

/-- Settles O23: the source of free values is `drawsFrom` with the wanted fields listed in the order they are drawn. -/
theorem undefinedAnswersMayBeAnyValue : Obligations.UndefinedAnswersMayBeAnyValue := by
  intro c k v
  refine ⟨fun sub h => ?_, fun hc hi lo => ⟨drawsFrom k [hi.setWidth 32, lo.setWidth 32, v.ecx, v.edx], ?_⟩,
    fun h19 => ⟨drawsFrom k [v.eax, v.ebx, v.ecx, (v.edx.extractLsb' 20 12).setWidth 32,
      (v.edx.extractLsb' 0 19).setWidth 32], ?_⟩⟩
  · obtain ⟨draw, hv⟩ := exists_undefinedAnswer k v
    exact ⟨draw, (cpuidTable_leaf24_undefined draw k h).trans hv⟩
  · rw [cpuidTable_leaf24 _ k hc]
    simp [drawsFrom_add, drawsFrom_start]
  · rw [cpuidTable_feature]
    simp [undefinedAnswer, drawsFrom_add, drawsFrom_start, featureEdx_fields h19]

/-- Settles O24: each execution gives the same function of the configuration. -/
theorem enumeratedFieldsAreConstant : Obligations.EnumeratedFieldsAreConstant := by
  intro s t s' t' same hs ht
  refine ⟨fun hc leaf sub leaf' sub' => ?_, fun leaf sub leaf' sub' => ?_⟩
  · obtain ⟨eax, ebx⟩ := leaf24_of_exec_cpuid hs hc leaf sub
    obtain ⟨eax', ebx'⟩ := leaf24_of_exec_cpuid ht (same ▸ hc) leaf' sub'
    rw [eax, ebx, eax', ebx', same]
    exact ⟨rfl, rfl⟩
  · rw [feature_of_exec_cpuid hs leaf sub, feature_of_exec_cpuid ht leaf' sub', same]

/-- Settles O25: the two refinements where they are taken, an undefined answer elsewhere. -/
theorem rangeLeavesAreAnsweredOnlyWhereExposed : Obligations.RangeLeavesAreAnsweredOnlyWhereExposed := by
  intro c k leaf sub
  refine ⟨fun exposed draw => ?_, fun h24 h7 free v => ?_⟩
  · rw [cpuidTable_other draw k (by decide) (fun h => absurd h.1 (by decide)),
      cpuidTable_other draw k (by decide) (by decide)]
    simp [otherLeaves, exposed]
  · obtain ⟨draw, hv⟩ := exists_undefinedAnswer k v
    exact ⟨draw, (cpuidTable_other draw k h24 h7).trans ((otherLeaves_undefined draw k free).trans hv)⟩

/-! ### Versioning -/

/-- Settles O26: the fields the check reads are those of the configuration. -/
theorem detectionAgreesWithTheConfiguration : Obligations.DetectionAgreesWithTheConfiguration := hasAvx10_iff

/-- Settles O27: both conditions of the check are upper bounds. -/
theorem detectionIsDownwardClosed : Obligations.DetectionIsDownwardClosed := by
  intro draw s T T' L L' hT hL h
  obtain ⟨hc, version, length⟩ := (hasAvx10_iff draw s T L).mp h
  exact (hasAvx10_iff draw s T' L').mpr ⟨hc, hT.trans version, hL.trans length⟩

/-- Settles O28: the check for version 1 is `isaUsable`, and the twelve flags have no flag of their own to ask for. -/
theorem evexSetsNeedBothChecks : Obligations.EvexSetsNeedBothChecks := by
  intro draw s L wf
  simp only [hasIsa_one_eq_isaUsable draw s _ L wf, isaUsable_iff]
  exact ⟨Iff.rfl, Iff.rfl, Iff.rfl, fun f => by simp [ownFlagSet], fun _ => trivial⟩

/-- Settles O29: neither availability reads the vector-length bits but for the opmask length. -/
theorem scalarAndOpmaskInstructionsAreAvailable : Obligations.ScalarAndOpmaskInstructionsAreAvailable := by
  intro c hc
  have scalar (f : FeatureFlag) : scalarAvailable c f = ownFlagSet c f := by rw [scalarAvailable, hc, Bool.true_and]
  have opmask : opmaskInstructionLength c = some (opmaskLen c) := if_pos hc
  refine ⟨fun f => scalar _, ?_, ?_, ?_, fun h512 => ?_, fun h512 => ?_⟩
  · rw [scalar, ownFlagSet]
  · rw [scalar, ownFlagSet]
  · rw [scalar, ownFlagSet]
  · rw [opmask, opmaskLen, h512]; rfl
  · rw [opmask, opmaskLen, h512]; rfl

/-- Settles O30: `VL128` and `VL256` are set, so everything follows `VL512`, which an E-core does not have. -/
theorem lengthBitsAgreeWithTheMaximumLength : Obligations.LengthBitsAgreeWithTheMaximumLength := by
  intro c wf hc
  obtain ⟨-, vl128, vl256, pcore⟩ := cfgWellFormed_avx10 wf hc
  have length := maxVL_of_vl256 vl256
  cases h512 : c.vl512 with
  | false => simp [supportsLength, VecLen.bits, opmaskLen, length, h512, vl128, vl256]
  | true => simp [supportsLength, VecLen.bits, opmaskLen, length, h512, vl128, vl256, pcore h512]

/-- Settles O31: the columns are computed from the four reference configurations. -/
theorem capabilitiesReproduceTheTable : Obligations.CapabilitiesReproduceTheTable := by
  unfold Obligations.CapabilitiesReproduceTheTable
  decide

/-- Settles O32: a feature is in a version exactly where it was introduced by then. -/
theorem versionsAreInclusive : Obligations.VersionsAreInclusive := by
  refine ⟨fun N f h => ?_, fun f => ?_, fun N => inFeatures_iff N _⟩
  · exact (inFeatures_iff _ f).mpr (Nat.le_succ_of_le ((inFeatures_iff N f).mp h))
  · rw [inFeatures_iff]
    cases f with
    | isa g => exact ⟨fun _ => ⟨g, rfl⟩, fun _ => Nat.le_refl 1⟩
    | ymmEmbeddedRounding => simp [introducedIn]
    | newInstructionSets k => simp [introducedIn]

/-- Settles O33: with `VL512` clear the maximum is 256, and detection is `hasAvx10_iff` under the guest's configuration. -/
theorem guestOfTheVirtualMachineSeesAvx10At256 : Obligations.GuestOfTheVirtualMachineSeesAvx10At256 := by
  refine ⟨fun g wf hg h512 => ?_, fun c wf hc => ⟨cfgWellFormed_guest256 wf, hc, rfl⟩⟩
  obtain ⟨-, -, vl256, -⟩ := cfgWellFormed_avx10 wf hg
  have length : maxVL g = 256 := by rw [maxVL_of_vl256 vl256, h512]; rfl
  refine ⟨length, by rw [opmaskLen, h512]; rfl, fun draw s T L => ?_⟩
  rw [hasAvx10_iff, State.withCfg, length, VecLen.bits_le_256_iff]
  exact and_iff_right hg

/-- Settles O34: containment asks for the opmask length 64, which is that of `VL512`. -/
theorem legacyBinaryIsContainedOnlyAt512 : Obligations.LegacyBinaryIsContainedOnlyAt512 := by
  intro c hc
  cases h512 : c.vl512 <;> simp [avx512BinaryAt256, hc, legacyAvx512Capabilities, opmaskLen, h512]

end Sys2Proof.Proofs

/-! PROOFS. The shift, the branches, and what two instructions give one after the other (42_helper_instructions.md). -/

namespace Sys2Proof

/-- The imm8 of a SHR: a masked count of 0 is rejected, any other decodes (30_encoding.md R33). -/
theorem decodeCount_cons (rm : Reg) (imm : Byte) (rest : List Byte) :
    decodeCount rm (imm :: rest) =
      if imm.toNat % 32 = 0 then .error (.count imm) else .ok (.shrImm rm imm, rest) := by
  by_cases zero : imm.toNat % 32 = 0
  · rw [if_pos zero]
    exact if_neg fun shifts => (shiftsByCount_iff imm).mp shifts zero
  · rw [if_neg zero]
    exact decodeCount_of_shifts rm rest ((shiftsByCount_iff imm).mpr zero)

/-- The other extensions of `C1` are not admitted (42_helper_instructions.md R90). -/
theorem decodeC1_of_ne_five (rm : Reg) (rest : List Byte) {ext : BitVec 3} (h : ext ≠ 5#3) :
    decodeC1 (modRM 3 ext rm.bits :: rest) = .error (.form 0xC1 (modRM 3 ext rm.bits)) := by
  simp [decodeC1, h]

end Sys2Proof

namespace Sys2Proof.Machine

/-! ### The shift -/

section Shift
variable {imm : Byte} (rm : Reg) (s : State)

theorem exec_shrImm_of_zero (h : imm.toNat % 32 = 0) :
    exec (.shrImm rm imm) s = .refused (.notAdmittedCount imm) := if_pos (shiftCount_eq imm ▸ h)

/-- A count of 1 to 31 goes on to the next instruction (42_helper_instructions.md R90). -/
theorem exec_shrImm_of_ne_zero (h : imm.toNat % 32 ≠ 0) :
    exec (.shrImm rm imm) s = advance (effect (.shrImm rm imm) s) 3 := if_neg (shiftCount_eq imm ▸ h)

end Shift

section ShrFlags
variable (a : Half) {n : Nat} (af ovf : Bool)

/-- ZF says that no bit is left. -/
theorem shrFlags_ZF : (shrFlags a n af ovf).ZF = true ↔ a.toNat < 2 ^ n := by
  rw [shrFlags, beq_iff_eq, ← BitVec.toNat_inj, BitVec.toNat_ushiftRight, Nat.shiftRight_eq_div_pow]
  exact Nat.div_eq_zero_iff_lt (Nat.two_pow_pos n)

/-- A shift by 1 or more clears the sign. -/
theorem shrFlags_SF (h : n ≠ 0) : (shrFlags a n af ovf).SF = false := by
  rw [shrFlags, BitVec.getLsbD_ushiftRight]
  exact BitVec.getLsbD_of_ge a _ (by omega)

theorem shrFlags_PF : (shrFlags a n af ovf).PF = true ↔ lowByteOnes (a >>> n) % 2 = 0 := evenParity_iff (a >>> n)

/-- OF is defined for a count of 1 alone: the sign of the source. -/
theorem shrFlags_OF (h : n = 1) : (shrFlags a n af ovf).OF = a.getLsbD 31 := if_pos h

end ShrFlags

/-- A logical shift divides by a power of 2, and the register written holds the quotient. -/
theorem toNat_writeReg32_ushiftRight (s : State) (r : Reg) (a : Half) (n : Nat) :
    ((writeReg32 s r (a >>> n)).x.get r.index).toNat = a.toNat / 2 ^ n := by
  rw [writeReg32_get_same, BitVec.toNat_setWidth_of_le (by omega), BitVec.toNat_ushiftRight,
    Nat.shiftRight_eq_div_pow]

/-! ### Compare -/

/-- OF of CMP is the signed overflow of the subtraction (42_helper_instructions.md R92). -/
theorem cmpFlags_OF_eq_ssubOverflow (a b : Half) : (cmpFlags a b).OF = a.ssubOverflow b := by
  have signs : ∀ x y z : Bool, (x != y && z != x) = (!x && y && z || x && !y && !z) := by decide
  rw [BitVec.ssubOverflow_eq, BitVec.msb_eq_getLsbD_last, BitVec.msb_eq_getLsbD_last, BitVec.msb_eq_getLsbD_last]
  exact signs _ _ _

/-- Signed overflow: the exact difference is no 32-bit signed value. -/
theorem ssubOverflow_iff (a b : Half) :
    a.ssubOverflow b = true ↔ a.toInt - b.toInt < -2 ^ 31 ∨ 2 ^ 31 ≤ a.toInt - b.toInt := by
  rw [BitVec.ssubOverflow, Bool.or_eq_true, decide_eq_true_iff, decide_eq_true_iff, or_comm]

theorem flags_of_exec_cmpImm {rm : Reg} {imm : Half} {s t : State} (h : exec (.cmpImm rm imm) s = .next t) :
    t.flags = cmpFlags (readReg32 s rm) imm := by
  obtain ⟨p, rfl⟩ := exec_next h
  rfl

/-! ### The branches -/

section Branch
variable {s t : State} {rel : Byte} {taken : Bool}

/-- The target of a taken branch as a 64-bit sum (42_helper_instructions.md R93). -/
theorem ofInt_branchTarget_taken (s : State) (rel : Byte) :
    BitVec.ofInt 64 (branchTarget s rel true) = s.rip + 2 + rel.signExtend 64 := by
  rw [branchTarget, if_pos rfl, BitVec.ofInt_add, BitVec.ofInt_add, BitVec.ofInt_natCast, BitVec.ofNat_toNat,
    BitVec.setWidth_eq]
  rfl

theorem branch_of_taken (h : taken = true) (low : 0 ≤ (s.rip.toNat : Int) + 2 + rel.toInt)
    (high : (s.rip.toNat : Int) + 2 + rel.toInt < 2 ^ 64) :
    branch s rel taken = .next { s with rip := s.rip + 2 + rel.signExtend 64 } := by
  subst h
  rw [← ofInt_branchTarget_taken]
  exact goTo_of_range s low (by omega)

theorem branch_of_not_taken (rel : Byte) (h : taken = false) (range : s.rip.toNat + 2 < 2 ^ 64) :
    branch s rel taken = .next { s with rip := s.rip + 2 } := by
  subst h
  exact advance_of_range s range

theorem goTo_of_no_address (s : State) {n : Int} (h : n < 0 ∨ 2 ^ 64 ≤ n) :
    goTo s n = .refused (.notAdmittedTarget n) := if_neg (by omega)

/-- A taken branch is refused where its target is no 64-bit address (10_state.md R11). -/
theorem branch_of_no_address
    (h : (s.rip.toNat : Int) + 2 + rel.toInt < 0 ∨ 2 ^ 64 ≤ (s.rip.toNat : Int) + 2 + rel.toInt) :
    branch s rel true = .refused (.notAdmittedTarget (s.rip.toNat + 2 + rel.toInt)) :=
  goTo_of_no_address s h

/-- Where a branch that completes has gone. -/
theorem rip_of_branch (h : branch s rel taken = .next t) :
    t.rip = s.rip + 2 + (if taken then rel.signExtend 64 else 0) := by
  rw [branch_eq_goTo] at h
  obtain ⟨-, rfl⟩ := goTo_next h
  cases taken with
  | true => exact ofInt_branchTarget_taken s rel
  | false =>
    have past : BitVec.ofInt 64 ((s.rip.toNat : Int) + 2) = s.rip + 2 := by
      rw [BitVec.ofInt_add, BitVec.ofInt_natCast, BitVec.ofNat_toNat, BitVec.setWidth_eq]; rfl
    exact past.trans (BitVec.add_zero _).symm

end Branch

end Sys2Proof.Machine

namespace Sys2Proof.Proofs

open Sys2Proof.Machine

/-! ### Shift -/

/-- Settles O45: the bytes and the meaning refuse the same counts, and the flags are those of `shrFlags`. -/
theorem shrResult : Obligations.ShrResult := by
  refine fun rm imm => ⟨fun rest => ?_, fun e rest h5 h8 => ?_,
    fun s => ⟨exec_shrImm_of_zero rm s, fun count h => ⟨_, exec_eq_completed (exec_shrImm_of_ne_zero rm s count) h, ?_⟩⟩⟩
  · rw [modRMByte_extension (by decide) (by decide)]
    exact (decodeC1_shr rm _).trans (decodeCount_cons rm imm rest)
  · have other : BitVec.ofNat 3 e ≠ 5#3 := by bv_omega
    rw [modRMByte_extension (by decide) h8]
    exact ⟨_, decodeC1_of_ne_five rm rest other⟩
  · have flags : (completed (.shrImm rm imm) s).flags =
        shrFlags (readReg32 s rm) (imm.toNat % 32) (drawBit s.draws) (drawBit (s.draws + 1)) := by
      rw [← shiftCount_eq]; rfl
    rw [flags]
    refine ⟨?_, rfl, shrFlags_ZF _ _ _, shrFlags_SF _ _ _ count, shrFlags_PF _ _ _, shrFlags_OF _ _ _,
      completed_keepsRegsBut (.shrImm rm imm) s, completed_keepsMemory s nofun, completed_keepsFixed _ s, rfl⟩
    rw [← shiftCount_eq]
    exact toNat_writeReg32_ushiftRight s rm _ _

/-! ### Control transfer -/

/-- Settles O47: JZ is `branch` on ZF and JNZ on its complement. -/
theorem zeroBranchResults : Obligations.ZeroBranchResults := by
  refine fun rel => ⟨fun rest => ⟨rfl, rfl⟩, fun s => ⟨fun low high => ⟨fun zf => ?_, fun zf => ?_⟩,
    fun range => ⟨fun zf => ?_, fun zf => ?_⟩⟩⟩
  · exact branch_of_taken zf low high
  · exact branch_of_taken (congrArg not zf) low high
  · exact branch_of_not_taken rel zf range
  · exact branch_of_not_taken rel (congrArg not zf) range

/-- Settles O48: JB is `branch` on CF and JAE on its complement. -/
theorem carryBranchResults : Obligations.CarryBranchResults := by
  refine fun rel => ⟨fun rest => ⟨rfl, rfl⟩, fun s => ⟨fun low high => ⟨fun cf => ?_, fun cf => ?_⟩,
    fun range => ⟨fun cf => ?_, fun cf => ?_⟩⟩⟩
  · exact branch_of_taken cf low high
  · exact branch_of_taken (congrArg not cf) low high
  · exact branch_of_not_taken rel cf range
  · exact branch_of_not_taken rel (congrArg not cf) range

/-- Settles O49: JMP is `branch`, always taken. -/
theorem jmpResult : Obligations.JmpResult :=
  fun _ => ⟨fun _ => rfl, fun _ => ⟨branch_of_taken rfl, branch_of_no_address⟩⟩

/-! ### Two instructions -/

/-- Settles O39: the store was admitted, so the four bytes read are the four written. -/
theorem loadAfterStoreGivesTheStoredValue : Obligations.LoadAfterStoreGivesTheStoredValue := by
  intro rm reg reg' rm' s t u wf hst address hld
  obtain ⟨-, top⟩ := (admitted_iff _ _).mp (execMovStore_admitted hst)
  obtain ⟨p, rfl⟩ := exec_next hld
  calc readReg32 (writeReg32 t reg' (read32 t.mem (readReg64 t rm').toNat)) reg'
      = read32 t.mem (readReg64 s rm).toNat := by rw [readReg32_writeReg32_same, address]
    _ = readReg32 s reg := by rw [mem_of_exec_movStore hst, read32_write32 _ wf top]

/-- Settles O43: `cmpFlags` computes the signed overflow of the library's subtraction. -/
theorem cmpOverflowIsSignedOverflow : Obligations.CmpOverflowIsSignedOverflow := by
  intro rm imm s t h
  rw [flags_of_exec_cmpImm h, cmpFlags_OF_eq_ssubOverflow, ssubOverflow_iff]

/-- Settles O50: CF after CMP is the unsigned order, and the two branches are `branch` on CF and on its complement. -/
theorem branchAfterCompareIsUnsigned : Obligations.BranchAfterCompareIsUnsigned := by
  intro rm imm rel s t u v hcmp hjb hjae
  have order : t.flags.CF = true ↔ (readReg32 s rm).toNat < imm.toNat :=
    flags_of_exec_cmpImm hcmp ▸ cmpFlags_CF _ imm
  rw [rip_of_branch (taken := t.flags.CF) hjb, rip_of_branch (taken := !t.flags.CF) hjae]
  cases cf : t.flags.CF with
  | true =>
    have below := order.mp cf
    simp [below]
  | false =>
    have not_below : ¬(readReg32 s rm).toNat < imm.toNat := fun lt => by simp [order.mpr lt] at cf
    simp [not_below]

end Sys2Proof.Proofs
